-- ==== Sys2Proof/Word.lean ====
section
/-! DEFINITION. The word type of the hardware: the only width is 8 bits (20_memory.md R35). -/

namespace Sys2Proof

/-- One byte: a chip register, a bus address, a command byte or a character code (R5, R35, R55). -/
abbrev Byte := BitVec 8

end Sys2Proof
end

