-- ==== Sys2Proof/Config.lean ====
section
/-! DEFINITION. What an implementation fixes: the OPEN parameters of 00_scope.md R4, each a constant with no body, so that
no proof can learn a value of one (free values), and the chip's registers by name. -/

namespace Sys2Proof

/-- The five registers of the display controller chip: the control register and the digit registers 0 to 3, 0 the
leftmost (10_state.md R11, R12). There is no other (20_memory.md R37). -/
inductive ChipReg where
  | ctrl
  | dig (i : Fin 4)
  deriving DecidableEq, Repr

/-- What the environment does with one bus write: it completes it, it fails it (20_memory.md R31, `bus_ok`), or it never
returns from it (20_memory.md R42, 70_reset_and_hazards.md R179). -/
inductive BusAnswer where
  | completes
  | fails
  | never
  deriving DecidableEq, Repr, Inhabited

/-- `bus_ok` for the write number `n` of the run, to `addr`, of `value`, once the answers listed in the state are used up:
OPEN, under no law (20_memory.md R31; log 1). -/
opaque Config.busAnswer (n : Nat) (addr value : Byte) : BusAnswer

/-- What a register holds after write number `n`, of `value` to `addr`, did not complete, `old` being what it held before:
any 8-bit value (20_memory.md R31; log 2). -/
opaque Config.failedWriteByte (n : Nat) (addr value old : Byte) : Byte

/-- `chip_por` of the control register: OPEN (10_state.md R19; log 4). -/
opaque Config.chipPorCtrl : Byte

/-- `chip_por` of the digit registers: OPEN (10_state.md R19; log 4). -/
opaque Config.chipPorDig (i : Fin 4) : Byte

/-- The 7-bit pattern the glyph table stores for a character, given by its upper-case code where it is a letter: OPEN
(40_segment_encoder.md R70, decision D4; log 5). -/
opaque Config.glyphPattern (key : Byte) : BitVec 7

/-- For the letters C, H and L: one less than the exclusive-or of the upper-case and the lower-case pattern, so that the two
patterns differ and are otherwise OPEN (40_segment_encoder.md R72; log 5). -/
opaque Config.caseDifference (key : Byte) : Fin 127

end Sys2Proof
end

