-- ==== Sys2Proof/Syntax.lean ====
section
/-! DEFINITION. The instructions: the nine operations of 30_encoding.md R58 and the five bus transactions of R50 and R51,
one constructor per row of spec/opcode_table.json. -/

namespace Sys2Proof

/-- One constructor per row of the opcode table. Integers are unbounded and a text is any finite sequence (00_scope.md R7,
30_encoding.md R59; log 13); a character is an 8-bit code (R55; log 18). -/
inductive Instr where
  /-- INIT: construction of the controller (41_control_writer.md R90). -/
  | init
  /-- ENABLE on, brightness (41_control_writer.md R91). -/
  | enable (on : Bool) (brightness : Int)
  /-- CLEAR (42_digit_mux.md R112). -/
  | clear
  /-- SETDIGIT index, character, dot (42_digit_mux.md R111). -/
  | setDigit (index : Int) (character : Byte) (dot : Bool)
  /-- PRINT text (43_text_formatter.md R125). -/
  | print (text : List Byte)
  /-- SHOWNUMBER num (43_text_formatter.md R129). -/
  | showNumber (num : Int)
  /-- CLOSE (41_control_writer.md R93). -/
  | close
  /-- ENCODE character (40_segment_encoder.md R73). -/
  | encode (character : Byte)
  /-- WITHDOT pattern (40_segment_encoder.md R74). -/
  | withDot (pattern : Byte)
  /-- The bus transaction (0x24, data) (30_encoding.md R50, R51). -/
  | wrCtrl (data : Byte)
  /-- The bus transaction (0x34, data). -/
  | wrDig0 (data : Byte)
  /-- The bus transaction (0x35, data). -/
  | wrDig1 (data : Byte)
  /-- The bus transaction (0x36, data). -/
  | wrDig2 (data : Byte)
  /-- The bus transaction (0x37, data). -/
  | wrDig3 (data : Byte)
  deriving DecidableEq, Repr

/-- `ENABLE on` and `ENABLE off` with the brightness left out: the assembler fills the source's default, 7
(30_encoding.md R62). -/
def Instr.enableDefault (on : Bool) : Instr := .enable on 7

/-- The nine operations a caller can issue, as against the bus transactions (30_encoding.md R58). -/
def Instr.isCommand : Instr → Bool
  | .init | .enable _ _ | .clear | .setDigit _ _ _ | .print _ | .showNumber _ | .close | .encode _ | .withDot _ => true
  | .wrCtrl _ | .wrDig0 _ | .wrDig1 _ | .wrDig2 _ | .wrDig3 _ => false

end Sys2Proof
end

