-- ==== Sys2Proof/WellFormed.lean ====
section
/-! DEFINITION. Which instructions a command word can carry (30_encoding.md R57, R59): the operand ranges of the encoding.
The meanings do not need them: they take every operand (00_scope.md R7). -/

namespace Sys2Proof

/-- The range of a `sext_8` field (R57). -/
def fitsSext8 (v : Int) : Bool := decide (-128 ≤ v) && decide (v ≤ 127)

/-- The range of a `sext_32` field (R57). -/
def fitsSext32 (v : Int) : Bool := decide (-2147483648 ≤ v) && decide (v ≤ 2147483647)

/-- The range of a text length, a `zext_8` field (R57). -/
def fitsLength (text : List Byte) : Bool := decide (text.length ≤ 255)

/-- An instruction whose operands fit their fields of the command word (R57). A bus transaction carries any byte (R50). -/
def Instr.wf : Instr → Bool
  | .init => true
  | .enable _ brightness => fitsSext8 brightness
  | .clear => true
  | .setDigit index _ _ => fitsSext8 index
  | .print text => fitsLength text
  | .showNumber num => fitsSext32 num
  | .close => true
  | .encode _ => true
  | .withDot _ => true
  | .wrCtrl _ => true
  | .wrDig0 _ => true
  | .wrDig1 _ => true
  | .wrDig2 _ => true
  | .wrDig3 _ => true

end Sys2Proof
end

