-- ==== Sys2Proof/Decode.lean ====
section
/-! DEFINITION. The two decoders, of command bytes (30_encoding.md R56 to R61) and of bus transactions (R50, R51), total on any
bytes; the encoder written from the same tables; and the entry point by which the host numbers an instruction's bits. -/

namespace Sys2Proof

/-- What the block finds at the front of the caller's bytes. -/
inductive CommandDecode where
  /-- No byte: no command has been issued. -/
  | idle
  /-- The caller has not yet given all the bytes of the command (log 9). -/
  | incomplete (op : Byte)
  /-- Opcode 0x00 or 0x0A to 0xFF: it selects no operation; one byte is consumed (R60 a). -/
  | reserved (op : Byte) (rest : List Byte)
  /-- A nonzero reserved bit in `onb` or `dotb`: malformed; the whole command is consumed (R60 b). -/
  | malformed (op : Byte) (rest : List Byte)
  /-- A command, and the bytes after it. -/
  | instr (i : Instr) (rest : List Byte)
  deriving DecidableEq, Repr

/-- What stands at the front of the bytes of a bus transaction, a pair (addr, data) (R50). -/
inductive TransactionDecode where
  /-- Not both bytes of the pair (log 21). -/
  | incomplete
  /-- An address that is none of the five (R51, 20_memory.md R37). -/
  | unmapped (addr : Byte)
  /-- A transaction, and the bytes after it. -/
  | instr (i : Instr) (rest : List Byte)
  deriving DecidableEq, Repr

/-! ### Fields -/

/-- Bits 7:1 of `onb` and `dotb`, which must be 0 (R57, R60 b). -/
def reservedBits (b : Byte) : BitVec 7 := b.extractLsb' 1 7

/-- `onb[0]` and `dotb[0]` (R59). -/
def flagBit (b : Byte) : Bool := b.getLsbD 0

/-- The number of SHOWNUMBER, least significant byte first: `sext_32(byte4 ‖ byte3 ‖ byte2 ‖ byte1)` (R57). -/
def numField (b1 b2 b3 b4 : Byte) : Int := (b4 ++ b3 ++ b2 ++ b1 : BitVec 32).toInt

/-! ### Commands -/

/-- Format E (R57). -/
def decodeEnable : List Byte → CommandDecode
  | onb :: brt :: rest =>
    if reservedBits onb = 0 then .instr (.enable (flagBit onb) brt.toInt) rest else .malformed 0x02 rest
  | _ => .incomplete 0x02

/-- Format D (R57). -/
def decodeSetDigit : List Byte → CommandDecode
  | idx :: chr :: dotb :: rest =>
    if reservedBits dotb = 0 then .instr (.setDigit idx.toInt chr (flagBit dotb)) rest else .malformed 0x04 rest
  | _ => .incomplete 0x04

/-- Format T (R57). -/
def decodePrint : List Byte → CommandDecode
  | n :: bytes =>
    if n.toNat ≤ bytes.length then .instr (.print (bytes.take n.toNat)) (bytes.drop n.toNat) else .incomplete 0x05
  | [] => .incomplete 0x05

/-- Format N (R57). -/
def decodeShowNumber : List Byte → CommandDecode
  | b1 :: b2 :: b3 :: b4 :: rest => .instr (.showNumber (numField b1 b2 b3 b4)) rest
  | _ => .incomplete 0x06

/-- Format L, the opcode `op` and what it makes of the argument (R57). -/
def decodeArg (op : Byte) (make : Byte → Instr) : List Byte → CommandDecode
  | arg :: rest => .instr (make arg) rest
  | [] => .incomplete op

/-- The opcode map (R58), with the reserved opcodes of R60 (a). -/
def decodeOpcode (op : Byte) (bytes : List Byte) : CommandDecode :=
  if op = 0x01 then .instr .init bytes
  else if op = 0x02 then decodeEnable bytes
  else if op = 0x03 then .instr .clear bytes
  else if op = 0x04 then decodeSetDigit bytes
  else if op = 0x05 then decodePrint bytes
  else if op = 0x06 then decodeShowNumber bytes
  else if op = 0x07 then .instr .close bytes
  else if op = 0x08 then decodeArg op .encode bytes
  else if op = 0x09 then decodeArg op .withDot bytes
  else .reserved op bytes

/-- The command at the front of the caller's bytes (R56). -/
def decodeCommand : List Byte → CommandDecode
  | [] => .idle
  | op :: bytes => decodeOpcode op bytes

/-! ### Bus transactions -/

/-- `CTRL_ADDR` = 0x24 and `DIG_ADDR[i]` = 0x34 + i (R51). -/
def ChipReg.addr : ChipReg → Byte
  | .ctrl => 0x24
  | .dig i => 0x34 + BitVec.ofNat 8 i.val

/-- The instruction that is the transaction (addr, data): the five rows of the table's bus side (R50, R51). -/
def transactionOf (addr data : Byte) : Option Instr :=
  if addr = 0x24 then some (.wrCtrl data)
  else if addr = 0x34 then some (.wrDig0 data)
  else if addr = 0x35 then some (.wrDig1 data)
  else if addr = 0x36 then some (.wrDig2 data)
  else if addr = 0x37 then some (.wrDig3 data)
  else none

/-- The transaction at the front of the bus side's bytes: the address, then the data byte (R50). -/
def decodeTransaction : List Byte → TransactionDecode
  | addr :: data :: rest =>
    match transactionOf addr data with
    | some i => .instr i rest
    | none => .unmapped addr
  | _ => .incomplete

/-! ### The encoder -/

/-- `onb` and `dotb` of a Boolean (R57). -/
def flagByte (b : Bool) : Byte := if b then 0x01 else 0x00

/-- The four bytes of `num`, least significant first (R57). -/
def numBytes (num : Int) : List Byte :=
  let w := BitVec.ofInt 32 num
  [w.extractLsb' 0 8, w.extractLsb' 8 8, w.extractLsb' 16 8, w.extractLsb' 24 8]

/-- The bytes of an instruction: a command word (R57, R58) or the pair of a transaction (R50). -/
def encode : Instr → List Byte
  | .init => [0x01]
  | .enable on brightness => [0x02, flagByte on, BitVec.ofInt 8 brightness]
  | .clear => [0x03]
  | .setDigit index character dot => [0x04, BitVec.ofInt 8 index, character, flagByte dot]
  | .print text => 0x05 :: BitVec.ofNat 8 text.length :: text
  | .showNumber num => 0x06 :: numBytes num
  | .close => [0x07]
  | .encode character => [0x08, character]
  | .withDot pattern => [0x09, pattern]
  | .wrCtrl data => [0x24, data]
  | .wrDig0 data => [0x34, data]
  | .wrDig1 data => [0x35, data]
  | .wrDig2 data => [0x36, data]
  | .wrDig3 data => [0x37, data]

/-- The length of the command that begins with `op` and `next`: a function of the opcode byte and, for PRINT, of byte 1
(R61). -/
def commandLength (op next : Byte) : Nat :=
  if op = 0x01 ∨ op = 0x03 ∨ op = 0x07 then 1
  else if op = 0x02 then 3
  else if op = 0x04 then 4
  else if op = 0x05 then 2 + next.toNat
  else if op = 0x06 then 5
  else if op = 0x08 ∨ op = 0x09 then 2
  else 1

/-! ### The host's numbering of an instruction's bits -/

/-- `count` bytes of `w`, bit 0 of `w` the least significant bit of the first of them. -/
def bytesOf : (count : Nat) → (w : Nat) → List Byte
  | 0, _ => []
  | count + 1, w => BitVec.ofNat 8 w :: bytesOf count (w / 256)

/-- The bytes of the instruction whose low `nbits` bits are `w` and whose other bits are 0, as many as the longest
instruction has (257, a PRINT of 255 characters, R61). -/
def tableBytes (nbits w : Nat) : List Byte := bytesOf 257 (w % 2 ^ nbits)

/-- Whether an instruction's first byte is one of the five register addresses, which are no opcodes (R51, R58). -/
def isTransactionByte (b : Byte) : Bool := (transactionOf b 0).isSome

/-- The bytes of one instruction out of a longer list: a pair on the bus side (R50), as many as R61 says on the command side. -/
def oneInstruction : List Byte → List Byte
  | [] => []
  | op :: rest =>
    if isTransactionByte op then (op :: rest).take 2 else (op :: rest).take (commandLength op (rest.headD 0))

/-- The instruction the decoder of its side reads from a row's bits: the two sides' first bytes are disjoint (R51, R58). -/
def decodeTableWord (nbits w : Nat) : Option Instr :=
  let bytes := oneInstruction (tableBytes nbits w)
  match decodeCommand bytes with
  | .instr i _ => some i
  | _ =>
    match decodeTransaction bytes with
    | .instr i _ => some i
    | _ => none

end Sys2Proof
end

