-- ==== Sys2Proof/Machine/State.lean ====
section
/-! DEFINITION. The state of the machine (10_state.md R10 to R19), what a run shows of it (00_scope.md R9), its inputs, the
reasons a step can stop, and the state after reset. -/

namespace Sys2Proof.Machine

/-- `hs`, the handle state (10_state.md R14). -/
inductive HandleState where
  /-- UNINIT: no handle has been constructed since hardware reset. -/
  | uninit
  /-- OPEN: a handle exists and owns the bus connection. -/
  | opened
  /-- CLOSED: the handle released the bus connection. -/
  | closed
  deriving DecidableEq, Repr

/-- `mode`, the ghost controller state (10_state.md R15). -/
inductive Mode where
  /-- No value: before the first INIT (70_reset_and_hazards.md R170; log 12). -/
  | noValue
  /-- Disabled. -/
  | disabled
  /-- Enabled(brightness), brightness in 0..7. -/
  | enabled (brightness : Fin 8)
  deriving DecidableEq, Repr

/-- The status a command returns (30_encoding.md R63). -/
inductive Status where
  | ok
  | busFault
  | refused
  deriving DecidableEq, Repr

/-- What one command returns to the caller: its status and, for ENCODE and WITHDOT, the result byte (30_encoding.md R56,
R63). -/
structure Return where
  status : Status
  result : Option Byte
  deriving DecidableEq, Repr

/-- One entry of the bus trace: a completed (`ok`) or a failed bus write (00_scope.md R9). -/
structure BusEntry where
  addr : Byte
  value : Byte
  ok : Bool
  deriving DecidableEq, Repr

/-- The machine stops with a fault. -/
inductive Fault where
  /-- Raised by `step` once a bus write has not returned: the command "never returns" and has no further step
  (20_memory.md R42, 93_implementation_defined.md U7). Safe: nothing can be proved of what follows a hang. -/
  | transportNeverReturned (addr value : Byte)
  /-- Raised by `step` for a bus transaction handed to the transport with an address that is none of the five: "nothing the
  block knows" (20_memory.md R37, U12; log 11). No command forms one. Safe: the model stops. -/
  | unmappedAddress (addr : Byte)
  deriving DecidableEq, Repr

/-- No meaning for the instruction. -/
inductive Refusal where
  /-- Answered by `exec` for an instruction not modelled yet, and by nothing else. Safe: the model stops. -/
  | notModelled (mnemonic : String)
  deriving DecidableEq, Repr

/-- The whole machine. The first four fields are the spec's own state (10_state.md R10); `trace` and `returns` are what a run
shows (00_scope.md R9, 70_reset_and_hazards.md R182), which no operation reads; the others are the machine's inputs and
the model's own fields. -/
structure State where
  /-- `CTRL`, the control register (10_state.md R11). -/
  ctrl : Byte
  /-- `DIG[0]` to `DIG[3]`, the digit registers, 0 the leftmost (10_state.md R12). -/
  dig : Vector Byte 4
  /-- `hs`, the handle state (10_state.md R14). -/
  hs : HandleState
  /-- `mode`, ghost: no bus write depends on it (10_state.md R15). -/
  mode : Mode
  /-- The bus trace, oldest first (00_scope.md R9, 20_memory.md R31). -/
  trace : List BusEntry
  /-- What the commands returned, oldest first (00_scope.md R9). -/
  returns : List Return
  /-- The caller's command bytes that no command has consumed yet (30_encoding.md R56; log 8). -/
  input : List Byte
  /-- The bytes of bus transactions handed to the transport other than by a command (30_encoding.md R50; log 10). -/
  txn : List Byte
  /-- The environment's answers to the coming bus writes; after the last of them `Config.busAnswer` (20_memory.md R31;
  log 1). -/
  answers : List BusAnswer
  /-- How many bus writes have been issued: the number that tells one write's free values from another's (log 1, log 2). -/
  writes : Nat
  /-- The (addr, value) of a bus write that the transport never returned from (20_memory.md R42; log 3). -/
  blocked : Option (Byte × Byte)
  deriving DecidableEq, Repr

/-- Hardware reset at power-on: `hs` is UNINIT, `mode` has no value, no bus write, the chip at `chip_por`
(70_reset_and_hazards.md R170, 10_state.md R19; log 1, 4, 8). The run, and with it what it shows, begins here (R182). -/
def State.reset : State where
  ctrl := Config.chipPorCtrl
  dig := Vector.ofFn Config.chipPorDig
  hs := .uninit
  mode := .noValue
  trace := []
  returns := []
  input := []
  txn := []
  answers := []
  writes := 0
  blocked := none

end Sys2Proof.Machine
end

