-- ==== Sys2Proof/Machine/Flags.lean ====
section
/-! DEFINITION. There are no flags (10_state.md R18). In their place stands the status a command returns: its byte, and the
operation that returns it (30_encoding.md R63). -/

namespace Sys2Proof.Machine

/-- The status byte (30_encoding.md R63). -/
def Status.code : Status → Byte
  | .ok => 0x00
  | .busFault => 0x01
  | .refused => 0x02

/-- The bytes the block gives the caller: the status byte, then the result byte if there is one (30_encoding.md R56). -/
def Return.bytes (r : Return) : List Byte := r.status.code :: r.result.toList

/-- Return a status and no result byte. -/
def State.report (status : Status) (s : State) : State := { s with returns := s.returns ++ [⟨status, none⟩] }

/-- Return OK and a result byte, as ENCODE and WITHDOT do (30_encoding.md R63). -/
def State.reportResult (result : Byte) (s : State) : State := { s with returns := s.returns ++ [⟨.ok, some result⟩] }

end Sys2Proof.Machine
end

