-- ==== Sys2Proof/Machine/Glyph.lean ====
section
/-! DEFINITION. The segment encoder's table `GLYPH` (40_segment_encoder.md R70 to R72), the same for every call, with its OPEN
values taken from Config; and the default table and segment assignment of R75 and R76, which no meaning uses. -/

namespace Sys2Proof.Machine

/-- The supported characters, the 35 keys of the table (40_segment_encoder.md R71), by their codes (30_encoding.md R55). -/
def glyphKeys : List Byte :=
  [0x30, 0x31, 0x32, 0x33, 0x34, 0x35, 0x36, 0x37, 0x38, 0x39] ++
  [0x20, 0x2D, 0x5F] ++
  [0x41, 0x42, 0x43, 0x44, 0x45, 0x46, 0x48, 0x4C, 0x50, 0x52, 0x55] ++
  [0x61, 0x62, 0x63, 0x64, 0x65, 0x66, 0x68, 0x6C, 0x70, 0x72, 0x75]

/-- Whether a character is a key of the table (R71). -/
def isSupported (c : Byte) : Bool := glyphKeys.contains c

/-- The lower-case letters whose pattern differs from the upper-case one: c, h and l (R72). -/
def hasOwnLowerCase (c : Byte) : Bool := [0x63, 0x68, 0x6C].contains c

/-- The upper-case code of a lower-case letter, and any other code itself (30_encoding.md R55). -/
def upperCase (c : Byte) : Byte := if 0x61 ≤ c ∧ c ≤ 0x7A then c - 0x20 else c

/-- A nonzero 7-bit number, one more than `k`. -/
def nonzeroPattern (k : Fin 127) : BitVec 7 := BitVec.ofNat 7 (k.val + 1)

/-- The pattern of a key other than space (R72): one pattern for both cases of a letter, but for c, h and l. -/
def keyPattern (c : Byte) : BitVec 7 :=
  if hasOwnLowerCase c then
    Config.glyphPattern (upperCase c) ^^^ nonzeroPattern (Config.caseDifference (upperCase c))
  else Config.glyphPattern (upperCase c)

/-- `GLYPH(c)` (R70): a key's 7-bit pattern with bit 7 clear, 0x00 for space (R72) and for every unsupported character. -/
def glyph (c : Byte) : Byte :=
  if c = 0x20 then 0x00
  else if isSupported c then (keyPattern c).setWidth 8
  else 0x00

/-! ### From general knowledge, not in the source (PRESUMED; log 17) -/

/-- The segments (R76). -/
inductive Segment where
  | a | b | c | d | e | f | g
  deriving DecidableEq, Repr

/-- The bit of a pattern that stands for a segment in the default table (R76). -/
def Segment.bit : Segment → Nat
  | .a => 0 | .b => 1 | .c => 2 | .d => 3 | .e => 4 | .f => 5 | .g => 6

/-- The pattern that lights the given segments (R76). -/
def patternOfSegments (lit : List Segment) : Byte :=
  lit.foldl (fun pattern segment => pattern ||| (1 <<< segment.bit)) 0x00

/-- `GLYPH_DEFAULT` by its segments, one row a character or a pair of cases (R75). -/
def glyphDefaultRows : List (List Byte × List Segment) :=
  [([0x30], [.a, .b, .c, .d, .e, .f]), ([0x31], [.b, .c]), ([0x32], [.a, .b, .d, .e, .g]),
   ([0x33], [.a, .b, .c, .d, .g]), ([0x34], [.b, .c, .f, .g]), ([0x35], [.a, .c, .d, .f, .g]),
   ([0x36], [.a, .c, .d, .e, .f, .g]), ([0x37], [.a, .b, .c]), ([0x38], [.a, .b, .c, .d, .e, .f, .g]),
   ([0x39], [.a, .b, .c, .d, .f, .g]), ([0x20], []), ([0x2D], [.g]), ([0x5F], [.d])] ++
  [([0x41, 0x61], [.a, .b, .c, .e, .f, .g]), ([0x42, 0x62], [.c, .d, .e, .f, .g]), ([0x43], [.a, .d, .e, .f]),
   ([0x63], [.d, .e, .g]), ([0x44, 0x64], [.b, .c, .d, .e, .g]), ([0x45, 0x65], [.a, .d, .e, .f, .g]),
   ([0x46, 0x66], [.a, .e, .f, .g]), ([0x48], [.b, .c, .e, .f, .g]), ([0x68], [.c, .e, .f, .g]),
   ([0x4C], [.d, .e, .f]), ([0x6C], [.e, .f]), ([0x50, 0x70], [.a, .b, .e, .f, .g]),
   ([0x52, 0x72], [.e, .g]), ([0x55, 0x75], [.b, .c, .d, .e, .f])]

/-- `GLYPH_DEFAULT` (R75): 0x00 for every character not in the table. -/
def glyphDefault (c : Byte) : Byte :=
  match glyphDefaultRows.find? (fun row => row.1.contains c) with
  | some row => patternOfSegments row.2
  | none => 0x00

end Sys2Proof.Machine
end

