-- ==== Sys2Proof/Machine/Operands.lean ====
section
/-! DEFINITION. What the operands of a command become before any bus write: the clamp, the control byte, the digit byte, the
address selection, period folding, decimal formatting, and the list of writes of each operation. The glyph table is an
argument `g` throughout; the meanings give it `glyph`. -/

namespace Sys2Proof.Machine

/-- One bus write a command is to make: the register and the byte. -/
abbrev Write := ChipReg × Byte

/-! ### The control byte (41_control_writer.md, 30_encoding.md R52) -/

/-- `clamp(brightness, 0, 7)`, over the integers (41_control_writer.md R92). -/
def clampBrightness (brightness : Int) : Fin 8 :=
  if brightness < 0 then 0 else if 7 < brightness then 7 else Fin.ofNat 8 brightness.toNat

/-- The control byte of a display that is on at brightness `b`: `b | 0x01` (30_encoding.md R52). -/
def onByte (b : Fin 8) : Byte := BitVec.ofNat 8 b.val ||| 0x01

/-- The control byte of a display that is off (30_encoding.md R52). -/
def offByte : Byte := 0x00

/-- The brightness of a construction (41_control_writer.md R90). -/
def constructionBrightness : Fin 8 := 7

/-- The mode that ENABLE goes to (41_control_writer.md R91). With `on` false the brightness is not looked at. -/
def enableMode (on : Bool) (brightness : Int) : Mode :=
  if on then .enabled (clampBrightness brightness) else .disabled

/-- The byte that ENABLE writes (41_control_writer.md R91). -/
def enableByte (on : Bool) (brightness : Int) : Byte :=
  if on then onByte (clampBrightness brightness) else offByte

/-! ### The digit byte and the multiplexer (42_digit_mux.md, 40_segment_encoder.md R74) -/

/-- `pattern | 0x80` (40_segment_encoder.md R74). -/
def setDot (pattern : Byte) : Byte := pattern ||| 0x80

/-- The digit byte of a character with or without its dot (30_encoding.md R53). -/
def digitByte (g : Byte → Byte) (c : Byte) (dot : Bool) : Byte := if dot then setDot (g c) else g c

/-- `DIGSEL(index)`: the check is on the integer, before any narrowing (42_digit_mux.md R110). -/
def digSel (index : Int) : Option ChipReg :=
  if 0 ≤ index ∧ index ≤ 3 then some (.dig (Fin.ofNat 4 index.toNat)) else none

/-- SETDIGIT's writes: one, or none where the index selects no register (42_digit_mux.md R111). -/
def setDigitWrites (g : Byte → Byte) (index : Int) (c : Byte) (dot : Bool) : List Write :=
  match digSel index with
  | some r => [(r, digitByte g c dot)]
  | none => []

/-- CLEAR's writes, in index order (42_digit_mux.md R112). -/
def clearWrites : List Write := [(.dig 0, 0x00), (.dig 1, 0x00), (.dig 2, 0x00), (.dig 3, 0x00)]

/-! ### PRINT (43_text_formatter.md R125, R126) -/

/-- The period, the one code that folds (30_encoding.md R55, 43_text_formatter.md R126). -/
def period : Byte := 0x2E

/-- PRINT's two-cursor scan (43_text_formatter.md R125): `left` positions are still free (`pos` is 4 less `left`), `src` is the
input cursor; each position gets a character and whether it carries the dot. -/
def scan (text : List Byte) : (left src : Nat) → List (Byte × Bool)
  | 0, _ => []
  | left + 1, src =>
    match text[src]? with
    | none => []
    | some c =>
      if text[src + 1]? = some period then (c, true) :: scan text left (src + 2)
      else (c, false) :: scan text left (src + 1)

/-- The equivalent recursion of 43_text_formatter.md R126, over the whole text: the first matching clause applies. -/
def foldPeriods : List Byte → List (Byte × Bool)
  | [] => []
  | [c] => [(c, false)]
  | c :: d :: rest => if d = period then (c, true) :: foldPeriods rest else (c, false) :: foldPeriods (d :: rest)

/-- SETDIGIT for each scanned position, from `pos` on (43_text_formatter.md R125). -/
def placeFrom (g : Byte → Byte) : (pos : Nat) → List (Byte × Bool) → List Write
  | _, [] => []
  | pos, (c, dot) :: more => setDigitWrites g pos c dot ++ placeFrom g (pos + 1) more

/-- PRINT's writes: the clear, then the positions (43_text_formatter.md R125). -/
def printWrites (g : Byte → Byte) (text : List Byte) : List Write := clearWrites ++ placeFrom g 0 (scan text 4 0)

/-! ### SHOWNUMBER (43_text_formatter.md R128, R129) -/

/-- The character of a decimal digit, `'0'` to `'9'` (30_encoding.md R55). -/
def digitChar (d : Nat) : Byte := BitVec.ofNat 8 (0x30 + d)

/-- The hyphen. -/
def hyphen : Byte := 0x2D

/-- The digits of `n` in base 10, most significant first, at most `fuel` + 1 of them. -/
def decDigits : (fuel n : Nat) → List Byte
  | 0, n => [digitChar (n % 10)]
  | fuel + 1, n => if n < 10 then [digitChar n] else decDigits fuel (n / 10) ++ [digitChar (n % 10)]

/-- `DEC` of a natural number: a number below 2 to the k has at most k digits (43_text_formatter.md R128). -/
def decNat (n : Nat) : List Byte := decDigits n.log2 n

/-- `DEC(n)`, the canonical decimal string (43_text_formatter.md R128). -/
def dec (n : Int) : List Byte := if n < 0 then hyphen :: decNat n.natAbs else decNat n.natAbs

/-- The last four characters, in their order; a string of at most four is left as it is (43_text_formatter.md R129). -/
def lastFour (t : List Byte) : List Byte := t.drop (t.length - 4)

/-- The text SHOWNUMBER hands to PRINT (43_text_formatter.md R129). -/
def numberText (num : Int) : List Byte := lastFour (dec num)

end Sys2Proof.Machine
end

