-- ==== Sys2Proof/Machine/Ops.lean ====
section
/-! DEFINITION. The named operations over the chip's registers and the bus: the observer's view of a register, the bus write
(20_memory.md R31), a command's writes one after the other (R38), the bus fault (60_exceptions.md R152), the refusal
(R154) and the hardware reset of the block (70_reset_and_hazards.md R170). -/

namespace Sys2Proof.Machine

/-! ### The register address space -/

/-- What a chip register holds: for the observer alone, no operation reads one (20_memory.md R32, R43). -/
def State.reg (s : State) : ChipReg → Byte
  | .ctrl => s.ctrl
  | .dig i => s.dig[i]

/-- `reg(addr) <- v` (20_memory.md R31). -/
def State.setReg (r : ChipReg) (v : Byte) (s : State) : State :=
  match r with
  | .ctrl => { s with ctrl := v }
  | .dig i => { s with dig := s.dig.set i v }

/-- The register at a bus address, if there is one (20_memory.md R37). -/
def regAt (addr : Byte) : Option ChipReg :=
  if addr = 0x24 then some .ctrl
  else if addr = 0x34 then some (.dig 0)
  else if addr = 0x35 then some (.dig 1)
  else if addr = 0x36 then some (.dig 2)
  else if addr = 0x37 then some (.dig 3)
  else none

/-- The byte at a bus address as the LED hardware sees it; none where there is no register (20_memory.md R37, R43). -/
def State.peek (s : State) (addr : Byte) : Option Byte := (regAt addr).map s.reg

/-! ### The bus write -/

/-- How a sequence of bus writes ends. -/
inductive WriteEnd where
  | completed
  | failed
  | blocked
  deriving DecidableEq, Repr

/-- `bus_ok` for the next write, of `v` to `addr`: the environment's listed answer, or the free one (20_memory.md R31; log 1). -/
def State.busAnswer (addr v : Byte) (s : State) : BusAnswer :=
  match s.answers with
  | answer :: _ => answer
  | [] => Config.busAnswer s.writes addr v

/-- The byte a register holds after a write that did not complete: any (20_memory.md R31; log 2). -/
def State.failedByte (r : ChipReg) (v : Byte) (s : State) : Byte :=
  Config.failedWriteByte s.writes r.addr v (s.reg r)

/-- The write is issued: its answer is used up and it has its number. -/
def State.issueWrite (s : State) : State := { s with answers := s.answers.tail, writes := s.writes + 1 }

/-- The trace gets one more entry (20_memory.md R31). -/
def State.record (entry : BusEntry) (s : State) : State := { s with trace := s.trace ++ [entry] }

/-- The transport does not return from this write (20_memory.md R42; log 3). -/
def State.hang (r : ChipReg) (v : Byte) (s : State) : State := { s with blocked := some (r.addr, v) }

/-- `MemWrite(addr, 1, v)`, the only access (20_memory.md R31, R42). -/
def State.busWrite (r : ChipReg) (v : Byte) (s : State) : WriteEnd × State :=
  match s.busAnswer r.addr v with
  | .completes => (.completed, (s.issueWrite.setReg r v).record ⟨r.addr, v, true⟩)
  | .fails => (.failed, (s.issueWrite.setReg r (s.failedByte r v)).record ⟨r.addr, v, false⟩)
  | .never => (.blocked, (s.issueWrite.setReg r (s.failedByte r v)).hang r v)

/-- A command's writes, in the listed order, each complete before the next; the first that does not complete is the last one
issued (20_memory.md R38, 60_exceptions.md R152). -/
def State.busWrites : List Write → State → WriteEnd × State
  | [], s => (.completed, s)
  | (r, v) :: more, s =>
    match s.busWrite r v with
    | (.completed, t) => t.busWrites more
    | (.failed, t) => (.failed, t)
    | (.blocked, t) => (.blocked, t)

/-! ### The end of a command -/

/-- Taking a bus fault, once the write has failed: the command is abandoned, and its status is BUS_FAULT (60_exceptions.md
R152). Nothing is saved and there is nothing to return from (R157). -/
def State.takeBusFault (s : State) : State := s.report .busFault

/-- A refused command has no effect at all: its status is REFUSED (60_exceptions.md R154). -/
def State.refuse (s : State) : State := s.report .refused

/-- Run a command's writes: if all complete, `after` and status OK; if one fails, `undo` and the bus fault; if one never
returns, the command never returns (60_exceptions.md R152, 20_memory.md R42). -/
def State.runWrites (writes : List Write) (after undo : State → State) (s : State) : State :=
  match s.busWrites writes with
  | (.completed, t) => (after t).report .ok
  | (.failed, t) => (undo t).takeBusFault
  | (.blocked, t) => t

/-- A command that only an OPEN handle admits (60_exceptions.md R154); the check is made once, at the start of the outermost
command (43_text_formatter.md R131). -/
def State.whenOpen (run : State → State) (s : State) : State := if s.hs = .opened then run s else s.refuse

/-- One bus transaction by itself: the bus write, and BUS_FAULT if it fails. It is no command, so it returns no status when it
completes (30_encoding.md R50; log 10). -/
def State.transact (r : ChipReg) (v : Byte) (s : State) : State :=
  match s.busWrite r v with
  | (.completed, t) => t
  | (.failed, t) => t.takeBusFault
  | (.blocked, t) => t

/-! ### Reset -/

/-- Hardware reset of the block: `hs` is UNINIT, `mode` has no value, nothing is in progress; the chip is not touched and no
bus write is issued (70_reset_and_hazards.md R170; log 15). -/
def State.blockReset (s : State) : State := { s with hs := .uninit, mode := .noValue, txn := [], blocked := none }

end Sys2Proof.Machine
end

