-- ==== Sys2Proof/Machine/Bus.lean ====
section
/-! DEFINITION. The five bus transactions as instructions of their own (30_encoding.md R50, R51; 20_memory.md R31; log 10). -/

namespace Sys2Proof.Machine

/-- WR_CTRL: the transaction (0x24, data). -/
def execWrCtrl (data : Byte) (s : State) : Host.Outcome State Fault Refusal := .next (s.transact .ctrl data)

/-- WR_DIG0: the transaction (0x34, data). -/
def execWrDig0 (data : Byte) (s : State) : Host.Outcome State Fault Refusal := .next (s.transact (.dig 0) data)

/-- WR_DIG1: the transaction (0x35, data). -/
def execWrDig1 (data : Byte) (s : State) : Host.Outcome State Fault Refusal := .next (s.transact (.dig 1) data)

/-- WR_DIG2: the transaction (0x36, data). -/
def execWrDig2 (data : Byte) (s : State) : Host.Outcome State Fault Refusal := .next (s.transact (.dig 2) data)

/-- WR_DIG3: the transaction (0x37, data). -/
def execWrDig3 (data : Byte) (s : State) : Host.Outcome State Fault Refusal := .next (s.transact (.dig 3) data)

end Sys2Proof.Machine
end

