-- ==== Sys2Proof/Machine/Control.lean ====
section
/-! DEFINITION. The control-register writer and the handle: INIT, ENABLE and CLOSE (41_control_writer.md R90, R91, R93). -/

namespace Sys2Proof.Machine

/-- INIT: refused while OPEN; on a bus fault no handle results and `hs` is what it was (41_control_writer.md R90). -/
def execInit (s : State) : Host.Outcome State Fault Refusal :=
  .next <|
    if s.hs = .opened then s.refuse
    else
      { s with hs := .opened }.runWrites [(.ctrl, onByte constructionBrightness)]
        (fun t => { t with mode := .enabled constructionBrightness }) (fun t => { t with hs := s.hs })

/-- ENABLE: one write in both branches; the mode follows it (41_control_writer.md R91). -/
def execEnable (on : Bool) (brightness : Int) (s : State) : Host.Outcome State Fault Refusal :=
  .next <| s.whenOpen fun s =>
    s.runWrites [(.ctrl, enableByte on brightness)] (fun t => { t with mode := enableMode on brightness }) id

/-- CLOSE: no bus write; the display is left as it is (41_control_writer.md R93). -/
def execClose (s : State) : Host.Outcome State Fault Refusal :=
  .next <| s.whenOpen fun s => { s with hs := .closed }.report .ok

end Sys2Proof.Machine
end

