-- ==== Sys2Proof/Machine/Digits.lean ====
section
/-! DEFINITION. The digit-register multiplexer: CLEAR and SETDIGIT (42_digit_mux.md R111, R112). -/

namespace Sys2Proof.Machine

/-- CLEAR (42_digit_mux.md R112). -/
def execClear (s : State) : Host.Outcome State Fault Refusal :=
  .next <| s.whenOpen fun s => s.runWrites clearWrites id id

/-- SETDIGIT (42_digit_mux.md R111). -/
def execSetDigit (index : Int) (character : Byte) (dot : Bool) (s : State) : Host.Outcome State Fault Refusal :=
  .next <| s.whenOpen fun s => s.runWrites (setDigitWrites glyph index character dot) id id

end Sys2Proof.Machine
end

