-- ==== Sys2Proof/Machine/Encoder.lean ====
section
/-! DEFINITION. The segment encoder's operations, ENCODE and WITHDOT (40_segment_encoder.md R73, R74): pure, and valid in every
handle state (R77). -/

namespace Sys2Proof.Machine

/-- ENCODE (40_segment_encoder.md R73). -/
def execEncode (character : Byte) (s : State) : Host.Outcome State Fault Refusal :=
  .next (s.reportResult (glyph character))

/-- WITHDOT (40_segment_encoder.md R74). -/
def execWithDot (pattern : Byte) (s : State) : Host.Outcome State Fault Refusal :=
  .next (s.reportResult (setDot pattern))

end Sys2Proof.Machine
end

