-- ==== Sys2Proof/Machine/Text.lean ====
section
/-! DEFINITION. The text sequencer: PRINT and SHOWNUMBER (43_text_formatter.md R125, R129). -/

namespace Sys2Proof.Machine

/-- PRINT (43_text_formatter.md R125). -/
def execPrint (text : List Byte) (s : State) : Host.Outcome State Fault Refusal :=
  .next <| s.whenOpen fun s => s.runWrites (printWrites glyph text) id id

/-- SHOWNUMBER: PRINT's writes for the last four characters of DEC (43_text_formatter.md R129). -/
def execShowNumber (num : Int) (s : State) : Host.Outcome State Fault Refusal :=
  .next <| s.whenOpen fun s => s.runWrites (printWrites glyph (numberText num)) id id

end Sys2Proof.Machine
end

