-- ==== Sys2Proof/Machine/Dispatch.lean ====
section
/-! DEFINITION. The meaning of every instruction, one arm each. -/

namespace Sys2Proof.Machine

def exec (i : Instr) (s : State) : Host.Outcome State Fault Refusal :=
  match i with
  | .init => Sys2Proof.Machine.execInit s
  | .enable on brightness => Sys2Proof.Machine.execEnable on brightness s
  | .clear => Sys2Proof.Machine.execClear s
  | .setDigit index character dot => Sys2Proof.Machine.execSetDigit index character dot s
  | .print text => Sys2Proof.Machine.execPrint text s
  | .showNumber num => Sys2Proof.Machine.execShowNumber num s
  | .close => Sys2Proof.Machine.execClose s
  | .encode character => Sys2Proof.Machine.execEncode character s
  | .withDot pattern => Sys2Proof.Machine.execWithDot pattern s
  | .wrCtrl data => Sys2Proof.Machine.execWrCtrl data s
  | .wrDig0 data => Sys2Proof.Machine.execWrDig0 data s
  | .wrDig1 data => Sys2Proof.Machine.execWrDig1 data s
  | .wrDig2 data => Sys2Proof.Machine.execWrDig2 data s
  | .wrDig3 data => Sys2Proof.Machine.execWrDig3 data s

end Sys2Proof.Machine
end

