-- ==== Sys2Proof/Machine/Fetch.lean ====
section
/-! DEFINITION. What the machine does next: the command at the front of the caller's bytes, or the bus transaction that stands
before it (30_encoding.md R50, R56, R60; 20_memory.md R38, R42). -/

namespace Sys2Proof.Machine

/-- What a step finds to do. -/
inductive Fetched where
  /-- An instruction, and the state with its bytes consumed. -/
  | run (i : Instr) (s : State)
  /-- No instruction: the step's outcome. -/
  | done (outcome : Host.Outcome State Fault Refusal)

/-- The command side: a reserved opcode and a malformed command are consumed and refused (30_encoding.md R60); with no
command, or with one whose last bytes the caller has not given, the block waits (70_reset_and_hazards.md R170; log 8, 9). -/
def State.fetchCommand (s : State) : Fetched :=
  match decodeCommand s.input with
  | .idle => .done (.next s)
  | .incomplete _ => .done (.next s)
  | .reserved _ rest => .done (.next { s with input := rest }.refuse)
  | .malformed _ rest => .done (.next { s with input := rest }.refuse)
  | .instr i rest => .run i { s with input := rest }

/-- The bus side (30_encoding.md R50; log 10, 11). With one byte of a pair (addr, data) only, which R50 does not have, the machine
waits in the same state and runs no command meanwhile (DESIGN CHOICE, log 21). -/
def State.fetchTransaction (s : State) : Fetched :=
  match decodeTransaction s.txn with
  | .incomplete => .done (.next s)
  | .unmapped addr => .done (.fault (.unmappedAddress addr))
  | .instr i rest => .run i { s with txn := rest }

/-- A write that never returned lets nothing past it (20_memory.md R42); a transaction handed to the transport comes before the
next command (R38; log 10). -/
def State.fetch (s : State) : Fetched :=
  match s.blocked with
  | some (addr, value) => .done (.fault (.transportNeverReturned addr value))
  | none => if s.txn = [] then s.fetchCommand else s.fetchTransaction

/-- The state with the given instruction's bytes where the next step fetches: on its own side, before what stands there, with
nothing in the way (log 8, 10). -/
def State.placeInstruction (bytes : List Byte) (s : State) : State :=
  match bytes with
  | [] => s
  | op :: _ =>
    if isTransactionByte op then { s with txn := bytes ++ s.txn, blocked := none }
    else { s with input := bytes ++ s.input, txn := [], blocked := none }

end Sys2Proof.Machine
end

