-- ==== Sys2Proof/Machine/Step.lean ====
section
/-! DEFINITION. One step of the machine: one command or one bus transaction, whole (20_memory.md R38, R40; log 6). -/

namespace Sys2Proof.Machine

/-- One step: fetch what is next and run it. -/
def step (s : State) : Host.Outcome State Fault Refusal :=
  match s.fetch with
  | .run i t => exec i t
  | .done outcome => outcome

/-- `s` with the instruction of a row's bits where the next step fetches (see `tableBytes` for the numbering of the bits). -/
def State.withFetchWord (s : State) (nbits w : Nat) : State := s.placeInstruction (oneInstruction (tableBytes nbits w))

end Sys2Proof.Machine
end

