-- ==== Sys2Proof/Safety.lean ====
section
/-! DEFINITION. The terms claims are stated in: what the environment is assumed to answer, what the observer reads off the bus
trace, which tables are admissible, and the invariants of the machine. Nothing here is used by a meaning. -/

namespace Sys2Proof.Machine

/-! ### The environment's answers -/

/-- The environment's answers to the given bus writes, were they the next ones, in this order: each is `bus_ok` where the writes
before it have been issued, be it an answer the state lists or a free one (20_memory.md R31; log 1). -/
def State.answersTo : List BusEntry → State → List BusAnswer
  | [], _ => []
  | entry :: more, s => s.busAnswer entry.addr entry.value :: s.issueWrite.answersTo more

/-- The environment completes all the given writes (20_memory.md R31). -/
abbrev State.Completes (entries : List BusEntry) (s : State) : Prop :=
  s.answersTo entries = List.replicate entries.length .completes

/-- The environment completes the first `k` of the given writes and fails the one after them (20_memory.md R31). -/
abbrev State.FailsAt (k : Nat) (entries : List BusEntry) (s : State) : Prop :=
  (s.answersTo entries).take (k + 1) = List.replicate k .completes ++ [.fails]

/-- The environment completes the first `k` of the given writes and never returns from the one after them (20_memory.md R42). -/
abbrev State.HangsAt (k : Nat) (entries : List BusEntry) (s : State) : Prop :=
  (s.answersTo entries).take (k + 1) = List.replicate k .completes ++ [.never]

/-! ### The observer (00_scope.md R9, 20_memory.md R43, R44) -/

/-- The trace entry of a write, completed or failed. -/
def entryOf (ok : Bool) (w : Write) : BusEntry := ⟨w.1.addr, w.2, ok⟩

/-- The last write to an address on a trace (20_memory.md R44). -/
def lastWriteTo (addr : Byte) (trace : List BusEntry) : Option BusEntry :=
  (trace.filter fun entry => entry.addr == addr).getLast?

/-! ### What PRINT and SHOWNUMBER show, position by position -/

/-- The byte of position `k` for the folded text `shown`: a glyph byte, or blank past its end (43_text_formatter.md R125). -/
def shownByte (shown : List (Byte × Bool)) (k : Nat) : Byte :=
  match shown[k]? with
  | some (c, dot) => if dot then glyph c ||| 0x80 else glyph c
  | none => 0x00

/-- The four clearing writes and then one write for each position of the folded text, by address (43_text_formatter.md R125). -/
def shownEntries (shown : List (Byte × Bool)) : List BusEntry :=
  [⟨0x34, 0x00, true⟩, ⟨0x35, 0x00, true⟩, ⟨0x36, 0x00, true⟩, ⟨0x37, 0x00, true⟩] ++
    (List.range shown.length).map fun k => ⟨0x34 + BitVec.ofNat 8 k, shownByte shown k, true⟩

/-- The bus writes of an instruction that runs and whose writes all complete, in order, by address (00_scope.md R9;
41_control_writer.md R90, R91, 42_digit_mux.md R111, R112, 43_text_formatter.md R125, R129). -/
def plannedEntries : Instr → List BusEntry
  | .init => [⟨0x24, 0x07, true⟩]
  | .enable on brightness =>
    [⟨0x24, if on then BitVec.ofInt 8 (max 0 (min 7 brightness)) ||| 0x01 else 0x00, true⟩]
  | .clear => shownEntries []
  | .setDigit index c dot =>
    if 0 ≤ index ∧ index ≤ 3 then
      [⟨BitVec.ofInt 8 (0x34 + index), if dot then glyph c ||| 0x80 else glyph c, true⟩]
    else []
  | .print text => shownEntries ((foldPeriods text).take 4)
  | .showNumber num => shownEntries (((dec num).drop ((dec num).length - 4)).map fun c => (c, false))
  | .close => []
  | .encode _ => []
  | .withDot _ => []
  | .wrCtrl data => [⟨0x24, data, true⟩]
  | .wrDig0 data => [⟨0x34, data, true⟩]
  | .wrDig1 data => [⟨0x35, data, true⟩]
  | .wrDig2 data => [⟨0x36, data, true⟩]
  | .wrDig3 data => [⟨0x37, data, true⟩]

/-- Which operations a handle state admits (60_exceptions.md R154). A bus transaction is no operation of the handle (log 10). -/
def admits : HandleState → Instr → Bool
  | _, .encode _ => true
  | _, .withDot _ => true
  | hs, .init => hs != .opened
  | hs, .enable _ _ => hs == .opened
  | hs, .clear => hs == .opened
  | hs, .setDigit _ _ _ => hs == .opened
  | hs, .print _ => hs == .opened
  | hs, .showNumber _ => hs == .opened
  | hs, .close => hs == .opened
  | _, .wrCtrl _ => true
  | _, .wrDig0 _ => true
  | _, .wrDig1 _ => true
  | _, .wrDig2 _ => true
  | _, .wrDig3 _ => true

/-- The number a string of digit characters stands for. -/
def decimalValue (digits : List Byte) : Nat := digits.foldl (fun n c => 10 * n + (c.toNat - 0x30)) 0

/-! ### The glyph table -/

/-- The code of a character (30_encoding.md R55). -/
def codeOf (ch : Char) : Byte := BitVec.ofNat 8 ch.toNat

/-- The supported characters of 40_segment_encoder.md R71, written out. -/
def supportedCharacters : List Char :=
  ['0', '1', '2', '3', '4', '5', '6', '7', '8', '9', ' ', '-', '_',
   'A', 'B', 'C', 'D', 'E', 'F', 'H', 'L', 'P', 'R', 'U',
   'a', 'b', 'c', 'd', 'e', 'f', 'h', 'l', 'p', 'r', 'u']

/-- What the spec fixes of the table: bit 7 clear, unsupported characters and space blank (R70), and the case rules (R72). -/
structure GlyphAdmissible (g : Byte → Byte) : Prop where
  bit7Clear : ∀ c, (g c).getLsbD 7 = false
  unsupportedBlank : ∀ c, c ∉ supportedCharacters.map codeOf → g c = 0x00
  spaceBlank : g (codeOf ' ') = 0x00
  distinctCases : g (codeOf 'C') ≠ g (codeOf 'c') ∧ g (codeOf 'H') ≠ g (codeOf 'h') ∧ g (codeOf 'L') ≠ g (codeOf 'l')
  sharedCases : g (codeOf 'A') = g (codeOf 'a') ∧ g (codeOf 'B') = g (codeOf 'b') ∧ g (codeOf 'D') = g (codeOf 'd') ∧
    g (codeOf 'E') = g (codeOf 'e') ∧ g (codeOf 'F') = g (codeOf 'f') ∧ g (codeOf 'P') = g (codeOf 'p') ∧
    g (codeOf 'R') = g (codeOf 'r') ∧ g (codeOf 'U') = g (codeOf 'u')

/-! ### Invariants -/

/-- A write the block can make: the five control bytes at 0x24, a glyph byte with or without its dot, or 0x00, at a digit
address (10_state.md R21 b, c, d). -/
def LegalEntry (entry : BusEntry) : Prop :=
  (entry.addr = 0x24 ∧ entry.value ∈ [0x00, 0x01, 0x03, 0x05, 0x07]) ∨
  (entry.addr ∈ [0x34, 0x35, 0x36, 0x37] ∧
    (entry.value = 0x00 ∨ ∃ c, entry.value = glyph c ∨ entry.value = glyph c ||| 0x80))

/-- Only commands reach the bus, and every write on the trace is one the block can make (10_state.md R21). -/
def State.BusLegal (s : State) : Prop := s.txn = [] ∧ ∀ entry ∈ s.trace, LegalEntry entry

/-- The transport is not stuck in a write to this address. -/
def State.NotBlockedAt (addr : Byte) (s : State) : Prop := ∀ value, s.blocked ≠ some (addr, value)

/-- The chip's registers are what the trace makes of `base`, their values at the start of the run (20_memory.md R44). -/
def State.RegistersFollowTrace (base : ChipReg → Byte) (s : State) : Prop :=
  ∀ r, s.NotBlockedAt r.addr →
    match lastWriteTo r.addr s.trace with
    | none => s.reg r = base r
    | some entry => entry.ok = true → s.reg r = entry.value

/-- The relation of `CTRL` and `mode` (10_state.md R15). -/
def State.CtrlIsModeByte (s : State) : Prop :=
  match s.mode with
  | .noValue => False
  | .disabled => s.ctrl = 0x00
  | .enabled b => s.ctrl = BitVec.ofNat 8 b.val ||| 0x01

/-- Only commands reach the bus, and while the last write to the control register completed, `CTRL` is the byte of `mode`
(10_state.md R15). -/
def State.CtrlFollowsMode (s : State) : Prop :=
  s.txn = [] ∧
    (s.NotBlockedAt 0x24 → ∀ entry, lastWriteTo 0x24 s.trace = some entry → entry.ok = true → s.CtrlIsModeByte)

/-- Every bus write issued is on the trace, but for one that never returned (00_scope.md R9, 20_memory.md R42). -/
def State.WritesCounted (s : State) : Prop :=
  s.writes = s.trace.length + (if s.blocked = none then 0 else 1)

end Sys2Proof.Machine
end

