-- ==== Sys2Proof/Certificates/Slice0/Obligations.lean ====
section
/-! DEFINITION. The statements for the provers. Each formalises rules of spec/; the docstring says which. In all of them
`answers` and `writes` are the model's own fields (log 1), and `Config.failedWriteByte` is the free value of log 2. A hypothesis
on the environment (`Completes`, `FailsAt`, `HangsAt`) is about its answers whether the state lists them or they are free. -/

open Sys2Proof Sys2Proof.Machine

/-! ### Encodings (30_encoding.md) -/

/-- R57 to R61: every command with operands in the range of its fields is read back from its bytes, whatever follows them. -/
def Obligations.DecodeOfEncodedCommand : Prop :=
  ∀ (i : Instr) (rest : List Byte), i.isCommand = true → i.wf = true → decodeCommand (encode i ++ rest) = .instr i rest

/-- R50, R51: every bus transaction is read back from its pair of bytes, whatever follows it. -/
def Obligations.DecodeOfEncodedTransaction : Prop :=
  ∀ (i : Instr) (rest : List Byte), i.isCommand = false → decodeTransaction (encode i ++ rest) = .instr i rest

/-- R57 to R61: the bytes of a decoded command are its only encoding, and as many as R61 says; so no bit is ignored. -/
def Obligations.CommandBytesAreItsEncoding : Prop :=
  ∀ (bytes : List Byte) (i : Instr) (rest : List Byte), decodeCommand bytes = .instr i rest →
    i.isCommand = true ∧ i.wf = true ∧ bytes = encode i ++ rest ∧
      (encode i).length = commandLength (bytes.headD 0) (bytes.tail.headD 0)

/-- R58, R60 (a): an opcode byte is reserved exactly when it is 0x00 or 0x0A and above. -/
def Obligations.ReservedOpcodesAreTheRest : Prop :=
  ∀ (op : Byte) (rest : List Byte), (decodeCommand (op :: rest) = .reserved op rest ↔ op = 0x00 ∨ 0x0A ≤ op)

/-- Words written out from the formats of R57 (test vectors of 95_test_vectors.md) decode to what they stand for. -/
def Obligations.WrittenOutWordsDecode : Prop :=
  decodeCommand [0x02, 0x01, 0xFF] = .instr (.enable true (-1)) [] ∧
  decodeCommand [0x04, 0xFF, 0x38, 0x00] = .instr (.setDigit (-1) (codeOf '8') false) [] ∧
  decodeCommand [0x06, 0xC7, 0xCF, 0xFF, 0xFF] = .instr (.showNumber (-12345)) [] ∧
  decodeCommand [0x05, 0x03, 0x41, 0x2E, 0x42] = .instr (.print [codeOf 'A', codeOf '.', codeOf 'B']) [] ∧
  decodeCommand [0x01, 0x03, 0x07] = .instr .init [0x03, 0x07] ∧
  decodeCommand [0x08, 0x30] = .instr (.encode (codeOf '0')) [] ∧
  decodeTransaction [0x35, 0x86] = .instr (.wrDig1 0x86) []

/-! ### The step -/

/-- R56, R38: with nothing in the way, a step runs exactly the command at the front of the caller's bytes, and consumes its
bytes (the byte stream is the model's form of the caller, log 8). -/
def Obligations.StepRunsDecodedCommand : Prop :=
  ∀ (s : State) (i : Instr) (rest : List Byte), s.blocked = none → s.txn = [] →
    decodeCommand s.input = .instr i rest → step s = exec i { s with input := rest }

/-- R50, R31: a step runs a transaction handed to the transport, and consumes its two bytes (the model's choice, log 10). -/
def Obligations.StepRunsDecodedTransaction : Prop :=
  ∀ (s : State) (i : Instr) (rest : List Byte), s.blocked = none →
    decodeTransaction s.txn = .instr i rest → step s = exec i { s with txn := rest }

/-- R60 (a): a reserved opcode is consumed, one byte, and refused: status REFUSED and nothing else. -/
def Obligations.ReservedOpcodeIsRefused : Prop :=
  ∀ (s : State) (op : Byte) (rest : List Byte), s.blocked = none → s.txn = [] → s.input = op :: rest →
    (op = 0x00 ∨ 0x0A ≤ op) →
    step s = .next { s with input := rest, returns := s.returns ++ [⟨.refused, none⟩] }

/-- R60 (b): a nonzero reserved bit in `onb` or `dotb` makes the command malformed: it is consumed whole and refused. -/
def Obligations.NonzeroReservedBitIsRefused : Prop :=
  ∀ (s : State) (flag : Byte) (rest : List Byte), s.blocked = none → s.txn = [] → 2 ≤ flag →
    (∀ brt, s.input = 0x02 :: flag :: brt :: rest →
      step s = .next { s with input := rest, returns := s.returns ++ [⟨.refused, none⟩] }) ∧
    (∀ idx chr, s.input = 0x04 :: idx :: chr :: flag :: rest →
      step s = .next { s with input := rest, returns := s.returns ++ [⟨.refused, none⟩] })

/-- The host's placement: the instruction of a row's bits is what the next step runs (the model's choice, log 8 and log 10). -/
def Obligations.PlacedInstructionRunsNext : Prop :=
  ∀ (s : State) (nbits w : Nat) (i : Instr), s.txn = [] → decodeTableWord nbits w = some i →
    step (s.withFetchWord nbits w) = exec i { s with blocked := none }

/-! ### Reset (70_reset_and_hazards.md) -/

/-- R170: reset makes the block UNINIT, gives `mode` no value, issues no bus write and does not touch the chip; after it the
block is idle and waits for a command. -/
def Obligations.ResetDoesTheLeast : Prop :=
  State.reset.hs = .uninit ∧ State.reset.mode = .noValue ∧ State.reset.trace = [] ∧
  (∀ s : State, s.blockReset.hs = .uninit ∧ s.blockReset.mode = .noValue ∧ s.blockReset.ctrl = s.ctrl ∧
    s.blockReset.dig = s.dig ∧ s.blockReset.trace = s.trace ∧
    (s.input = [] → step s.blockReset = .next s.blockReset)) ∧
  step State.reset = .next State.reset

/-! ### The control-register writer (41_control_writer.md) -/

/-- R90, R20: INIT. Refused while OPEN; else one write, (0x24, 0x07), then OPEN and Enabled(7), the digit registers as they were;
if that write fails, `hs` and `mode` are as before, `CTRL` holds any value, status BUS_FAULT. -/
def Obligations.InitOperation : Prop :=
  (∀ rest, decodeCommand (0x01 :: rest) = .instr .init rest) ∧
  ∀ s : State,
    (s.hs = .opened → exec .init s = .next { s with returns := s.returns ++ [⟨.refused, none⟩] }) ∧
    (s.hs ≠ .opened → s.Completes (plannedEntries .init) →
      exec .init s = .next
        { s with
          ctrl := 0x07, hs := .opened, mode := .enabled 7
          trace := s.trace ++ [⟨0x24, 0x07, true⟩], returns := s.returns ++ [⟨.ok, none⟩]
          answers := s.answers.drop 1, writes := s.writes + 1 }) ∧
    (s.hs ≠ .opened → s.FailsAt 0 (plannedEntries .init) →
      exec .init s = .next
        { s with
          ctrl := Config.failedWriteByte s.writes 0x24 0x07 s.ctrl
          trace := s.trace ++ [⟨0x24, 0x07, false⟩], returns := s.returns ++ [⟨.busFault, none⟩]
          answers := s.answers.drop 1, writes := s.writes + 1 })

/-- R92: the clamp, on every integer. -/
def Obligations.ClampOnIntegers : Prop :=
  ∀ b : Int, (b < 0 → clampBrightness b = 0) ∧ (7 < b → clampBrightness b = 7) ∧
    (0 ≤ b → b ≤ 7 → ((clampBrightness b).val : Int) = b)

/-- R52: the off byte and the table of on-bytes. -/
def Obligations.ControlByteTable : Prop :=
  offByte = 0x00 ∧ onByte 0 = 0x01 ∧ onByte 1 = 0x01 ∧ onByte 2 = 0x03 ∧ onByte 3 = 0x03 ∧
  onByte 4 = 0x05 ∧ onByte 5 = 0x05 ∧ onByte 6 = 0x07 ∧ onByte 7 = 0x07

/-- R91: ENABLE. Refused unless OPEN; off writes 0x00 whatever the brightness, on writes the clamped brightness with bit 0 set;
the mode follows a completed write; if the write fails, `mode` is unchanged, `CTRL` holds any value, status BUS_FAULT. -/
def Obligations.EnableOperation : Prop :=
  (∀ on brt rest, decodeCommand (0x02 :: (if on then 0x01 else 0x00) :: brt :: rest) = .instr (.enable on brt.toInt) rest) ∧
  ∀ (on : Bool) (brightness : Int) (s : State),
    (s.hs ≠ .opened →
      exec (.enable on brightness) s = .next { s with returns := s.returns ++ [⟨.refused, none⟩] }) ∧
    (s.hs = .opened → s.Completes (plannedEntries (.enable false brightness)) →
      exec (.enable false brightness) s = .next
        { s with
          ctrl := 0x00, mode := .disabled, trace := s.trace ++ [⟨0x24, 0x00, true⟩]
          returns := s.returns ++ [⟨.ok, none⟩], answers := s.answers.drop 1, writes := s.writes + 1 }) ∧
    (s.hs = .opened → s.Completes (plannedEntries (.enable true brightness)) →
      exec (.enable true brightness) s = .next
        { s with
          ctrl := BitVec.ofInt 8 (max 0 (min 7 brightness)) ||| 0x01
          mode := .enabled (Fin.ofNat 8 (max 0 (min 7 brightness)).toNat)
          trace := s.trace ++ [⟨0x24, BitVec.ofInt 8 (max 0 (min 7 brightness)) ||| 0x01, true⟩]
          returns := s.returns ++ [⟨.ok, none⟩], answers := s.answers.drop 1, writes := s.writes + 1 }) ∧
    (s.hs = .opened → s.FailsAt 0 (plannedEntries (.enable on brightness)) →
      exec (.enable on brightness) s = .next
        { s with
          ctrl := Config.failedWriteByte s.writes 0x24 (enableByte on brightness) s.ctrl
          trace := s.trace ++ [⟨0x24, enableByte on brightness, false⟩], returns := s.returns ++ [⟨.busFault, none⟩]
          answers := s.answers.drop 1, writes := s.writes + 1 })

/-- R176: brightness 2k and 2k+1 leave the same machine but for the ghost mode, whatever the environment answers; and the byte
of a display that is on is never that of one that is off. -/
def Obligations.LowBrightnessBitIsLost : Prop :=
  (∀ (k : Int) (s t u : State) (m : Mode),
    exec (.enable true (2 * k)) s = .next t → exec (.enable true (2 * k + 1)) s = .next u →
      { t with mode := m } = { u with mode := m }) ∧
  ∀ b : Int, enableByte true b ≠ enableByte false b

/-- R93: CLOSE. Refused unless OPEN; else the handle is CLOSED and nothing else changes: no bus write, the display left as it
is. -/
def Obligations.CloseOperation : Prop :=
  (∀ rest, decodeCommand (0x07 :: rest) = .instr .close rest) ∧
  ∀ s : State,
    (s.hs ≠ .opened → exec .close s = .next { s with returns := s.returns ++ [⟨.refused, none⟩] }) ∧
    (s.hs = .opened → exec .close s = .next { s with hs := .closed, returns := s.returns ++ [⟨.ok, none⟩] })

/-! ### The segment encoder (40_segment_encoder.md) -/

/-- R73: ENCODE returns OK and GLYPH(c), in every handle state, and changes nothing else. -/
def Obligations.EncodeOperation : Prop :=
  (∀ c rest, decodeCommand (0x08 :: c :: rest) = .instr (.encode c) rest) ∧
  ∀ (c : Byte) (s : State),
    exec (.encode c) s = .next { s with returns := s.returns ++ [⟨.ok, some (glyph c)⟩] } ∧
    (c ∉ supportedCharacters.map codeOf → glyph c = 0x00)

/-- R74: WITHDOT returns OK and pattern | 0x80, in every handle state, and changes nothing else. -/
def Obligations.WithDotOperation : Prop :=
  (∀ p rest, decodeCommand (0x09 :: p :: rest) = .instr (.withDot p) rest) ∧
  ∀ (p : Byte) (s : State),
    exec (.withDot p) s = .next { s with returns := s.returns ++ [⟨.ok, some (p ||| 0x80)⟩] }

/-- R70, R71, R72: the table is one of those the rules admit, whatever its OPEN values. -/
def Obligations.GlyphTableIsAdmissible : Prop := GlyphAdmissible glyph

/-- R75: the offered default table satisfies the same rules (from general knowledge, log 17). -/
def Obligations.DefaultTableIsAdmissible : Prop := GlyphAdmissible glyphDefault

/-! ### The digit-register multiplexer (42_digit_mux.md) -/

/-- R110: an index from 0 to 3 selects the register at 0x34 + index; every other integer selects none. -/
def Obligations.DigSelAddresses : Prop :=
  ∀ index : Int,
    (digSel index).map ChipReg.addr =
      if 0 ≤ index ∧ index ≤ 3 then some (BitVec.ofInt 8 (0x34 + index)) else none

/-- R111: SETDIGIT. Refused unless OPEN; an index outside [0,3] is a no-op with status OK; else one write of the whole digit
byte to that position's register; if it fails, that register holds any value, status BUS_FAULT. -/
def Obligations.SetDigitOperation : Prop :=
  (∀ idx c dot rest,
    decodeCommand (0x04 :: idx :: c :: (if dot then 0x01 else 0x00) :: rest) = .instr (.setDigit idx.toInt c dot) rest) ∧
  ∀ (c : Byte) (dot : Bool) (s : State),
    (s.hs ≠ .opened → ∀ index : Int,
      exec (.setDigit index c dot) s = .next { s with returns := s.returns ++ [⟨.refused, none⟩] }) ∧
    (s.hs = .opened → ∀ index : Int, index < 0 ∨ 3 < index →
      exec (.setDigit index c dot) s = .next { s with returns := s.returns ++ [⟨.ok, none⟩] }) ∧
    (s.hs = .opened → ∀ index : Fin 4, s.Completes (plannedEntries (.setDigit index.val c dot)) →
      exec (.setDigit index.val c dot) s = .next
        { s with
          dig := s.dig.set index (if dot then glyph c ||| 0x80 else glyph c)
          trace := s.trace ++ [⟨0x34 + BitVec.ofNat 8 index.val, if dot then glyph c ||| 0x80 else glyph c, true⟩]
          returns := s.returns ++ [⟨.ok, none⟩], answers := s.answers.drop 1, writes := s.writes + 1 }) ∧
    (s.hs = .opened → ∀ index : Fin 4, s.FailsAt 0 (plannedEntries (.setDigit index.val c dot)) →
      exec (.setDigit index.val c dot) s = .next
        { s with
          dig := s.dig.set index
            (Config.failedWriteByte s.writes (0x34 + BitVec.ofNat 8 index.val) (if dot then glyph c ||| 0x80 else glyph c)
              s.dig[index])
          trace := s.trace ++ [⟨0x34 + BitVec.ofNat 8 index.val, if dot then glyph c ||| 0x80 else glyph c, false⟩]
          returns := s.returns ++ [⟨.busFault, none⟩], answers := s.answers.drop 1, writes := s.writes + 1 })

/-- R112: CLEAR. Refused unless OPEN; else 0x00 to the four digit registers in index order, the control register as it is; a
fault at write k leaves the registers before k at 0x00, register k at any value and those after it as they were. -/
def Obligations.ClearOperation : Prop :=
  (∀ rest, decodeCommand (0x03 :: rest) = .instr .clear rest) ∧
  ∀ s : State,
    (s.hs ≠ .opened → exec .clear s = .next { s with returns := s.returns ++ [⟨.refused, none⟩] }) ∧
    (s.hs = .opened → s.Completes (plannedEntries .clear) →
      exec .clear s = .next
        { s with
          dig := #v[0x00, 0x00, 0x00, 0x00]
          trace := s.trace ++ [⟨0x34, 0x00, true⟩, ⟨0x35, 0x00, true⟩, ⟨0x36, 0x00, true⟩, ⟨0x37, 0x00, true⟩]
          returns := s.returns ++ [⟨.ok, none⟩], answers := s.answers.drop 4, writes := s.writes + 4 }) ∧
    (s.hs = .opened → ∀ k : Fin 4, s.FailsAt k.val (plannedEntries .clear) →
      exec .clear s = .next
        { s with
          dig := Vector.ofFn fun j : Fin 4 =>
            if j < k then 0x00
            else if j = k then Config.failedWriteByte (s.writes + k.val) (0x34 + BitVec.ofNat 8 k.val) 0x00 s.dig[k]
            else s.dig[j]
          trace := s.trace ++ ((List.range k.val).map fun j => ⟨0x34 + BitVec.ofNat 8 j, 0x00, true⟩) ++
            [⟨0x34 + BitVec.ofNat 8 k.val, 0x00, false⟩]
          returns := s.returns ++ [⟨.busFault, none⟩], answers := s.answers.drop (k.val + 1)
          writes := s.writes + k.val + 1 })

/-! ### The text sequencer (43_text_formatter.md) -/

/-- R126: the two-cursor scan of R125 is the first four positions of the folded text, by the clauses of `fold`: a period after a
character, any character, is its dot. -/
def Obligations.ScanIsFirstFourOfFold : Prop :=
  foldPeriods [] = [] ∧
  (∀ c rest, foldPeriods (c :: codeOf '.' :: rest) = (c, true) :: foldPeriods rest) ∧
  (∀ c rest, rest.head? ≠ some (codeOf '.') → foldPeriods (c :: rest) = (c, false) :: foldPeriods rest) ∧
  ∀ text : List Byte, scan text 4 0 = (foldPeriods text).take 4

/-- R127: with P = min(4, length of the folded text), the number of positions the scan of PRINT gives: P is 0 exactly when the
text is empty; between P and 2P characters are consumed; a PRINT whose writes complete adds 4 + P entries to the trace, in
which each of the positions 0 to P-1 has exactly two, 0x00 and then its byte, and each of the others exactly one, 0x00. -/
def Obligations.PrintCounts : Prop :=
  ∀ (text : List Byte) (s : State),
    (scan text 4 0).length = min 4 (foldPeriods text).length ∧
    ((scan text 4 0).length = 0 ↔ text = []) ∧
    (∃ consumed, consumed ≤ text.length ∧ (scan text 4 0).length ≤ consumed ∧ consumed ≤ 2 * (scan text 4 0).length ∧
      foldPeriods (text.take consumed) = scan text 4 0) ∧
    (s.hs = .opened → s.Completes (plannedEntries (.print text)) →
      ∃ (t : State) (added : List BusEntry), exec (.print text) s = .next t ∧ t.trace = s.trace ++ added ∧
        added.length = 4 + (scan text 4 0).length ∧
        ∀ i : Fin 4,
          (added.filter fun e => e.addr == 0x34 + BitVec.ofNat 8 i.val) =
            if i.val < (scan text 4 0).length then
              [⟨0x34 + BitVec.ofNat 8 i.val, 0x00, true⟩, ⟨0x34 + BitVec.ofNat 8 i.val, shownByte (scan text 4 0) i.val, true⟩]
            else [⟨0x34 + BitVec.ofNat 8 i.val, 0x00, true⟩])

/-- R125: PRINT. Refused unless OPEN; else it clears, then writes the folded positions from the left; positions past the text
are blank, `CTRL`, `hs` and `mode` as they were. A fault at write k, in the clear or after it, stops it there: the writes before
it are done, none after it is issued, status BUS_FAULT. -/
def Obligations.PrintOperation : Prop :=
  (∀ (text rest : List Byte), text.length ≤ 255 →
    decodeCommand (0x05 :: BitVec.ofNat 8 text.length :: (text ++ rest)) = .instr (.print text) rest) ∧
  ∀ (text : List Byte) (s : State),
    (s.hs ≠ .opened → exec (.print text) s = .next { s with returns := s.returns ++ [⟨.refused, none⟩] }) ∧
    (s.hs = .opened → s.Completes (plannedEntries (.print text)) →
      exec (.print text) s = .next
        { s with
          dig := Vector.ofFn fun j : Fin 4 => shownByte ((foldPeriods text).take 4) j.val
          trace := s.trace ++ shownEntries ((foldPeriods text).take 4)
          returns := s.returns ++ [⟨.ok, none⟩]
          answers := s.answers.drop (4 + min 4 (foldPeriods text).length)
          writes := s.writes + (4 + min 4 (foldPeriods text).length) }) ∧
    (s.hs = .opened → ∀ (k : Nat) (failing : BusEntry), s.FailsAt k (plannedEntries (.print text)) →
      (shownEntries ((foldPeriods text).take 4))[k]? = some failing →
      ∃ t : State, exec (.print text) s = .next t ∧
        t.trace = s.trace ++ (shownEntries ((foldPeriods text).take 4)).take k ++ [{ failing with ok := false }] ∧
        t.returns = s.returns ++ [⟨.busFault, none⟩] ∧ t.ctrl = s.ctrl ∧ t.hs = s.hs ∧ t.mode = s.mode)

/-- R174: PRINT that completes passes through an all-blank display: after its first four writes the last write to every digit
address is a completed 0x00. -/
def Obligations.PrintPassesThroughBlank : Prop :=
  ∀ (text : List Byte) (s : State), s.hs = .opened →
    s.Completes (plannedEntries (.print text)) →
    ∃ t : State, exec (.print text) s = .next t ∧
      ∀ i : Fin 4, lastWriteTo (0x34 + BitVec.ofNat 8 i.val) (t.trace.take (s.trace.length + 4)) =
        some ⟨0x34 + BitVec.ofNat 8 i.val, 0x00, true⟩

/-- R128: DEC of 0 is "0"; DEC of a positive number is its digits, with no leading zero; DEC of a negative number is a hyphen
and DEC of its opposite. -/
def Obligations.DecIsCanonicalDecimal : Prop :=
  dec 0 = [codeOf '0'] ∧
  (∀ n : Int, 0 < n →
    (∀ c ∈ dec n, codeOf '0' ≤ c ∧ c ≤ codeOf '9') ∧ (dec n).head? ≠ some (codeOf '0') ∧ dec n ≠ [] ∧
      (decimalValue (dec n) : Int) = n) ∧
  ∀ n : Int, n < 0 → dec n = codeOf '-' :: dec (-n)

/-- R129: SHOWNUMBER is PRINT of the last four characters of DEC(num), whatever the environment answers; when its writes
complete they show those characters from the left, no dot set. -/
def Obligations.ShowNumberOperation : Prop :=
  (∀ b1 b2 b3 b4 rest, decodeCommand (0x06 :: b1 :: b2 :: b3 :: b4 :: rest) =
    .instr (.showNumber (b4 ++ b3 ++ b2 ++ b1 : BitVec 32).toInt) rest) ∧
  ∀ (num : Int) (s : State),
    exec (.showNumber num) s = exec (.print ((dec num).drop ((dec num).length - 4))) s ∧
    (s.hs = .opened → s.Completes (plannedEntries (.showNumber num)) →
      exec (.showNumber num) s = .next
        { s with
          dig := Vector.ofFn fun j : Fin 4 =>
            shownByte (((dec num).drop ((dec num).length - 4)).map fun c => (c, false)) j.val
          trace := s.trace ++ shownEntries (((dec num).drop ((dec num).length - 4)).map fun c => (c, false))
          returns := s.returns ++ [⟨.ok, none⟩]
          answers := s.answers.drop (4 + min 4 (dec num).length)
          writes := s.writes + (4 + min 4 (dec num).length) })

/-- R129: a number of 10000 or more, or of -1000 or less, shows the four-digit, zero-padded value of |num| mod 10000. -/
def Obligations.LargeNumberShowsLowDigits : Prop :=
  ∀ (num : Int) (s : State), s.hs = .opened → s.Completes (plannedEntries (.showNumber num)) → (10000 ≤ num ∨ num ≤ -1000) →
    ∃ t : State, exec (.showNumber num) s = .next t ∧
      t.dig = #v[glyph (BitVec.ofNat 8 (0x30 + num.natAbs / 1000 % 10)), glyph (BitVec.ofNat 8 (0x30 + num.natAbs / 100 % 10)),
        glyph (BitVec.ofNat 8 (0x30 + num.natAbs / 10 % 10)), glyph (BitVec.ofNat 8 (0x30 + num.natAbs % 10))]

/-! ### The bus transactions (30_encoding.md R50, 20_memory.md R31) -/

/-- R31, R51: each transaction, completed, leaves the data byte in its register and on the trace (that a bare transaction returns
no status is the model's choice, log 10). -/
def Obligations.TransactionWritesRegister : Prop :=
  ∀ (v : Byte) (s : State),
    (s.Completes (plannedEntries (.wrCtrl v)) →
      exec (.wrCtrl v) s = .next
        { s with ctrl := v, trace := s.trace ++ [⟨0x24, v, true⟩], answers := s.answers.drop 1, writes := s.writes + 1 }) ∧
    (s.Completes (plannedEntries (.wrDig0 v)) →
      exec (.wrDig0 v) s = .next
        { s with dig := s.dig.set 0 v, trace := s.trace ++ [⟨0x34, v, true⟩], answers := s.answers.drop 1, writes := s.writes + 1 }) ∧
    (s.Completes (plannedEntries (.wrDig1 v)) →
      exec (.wrDig1 v) s = .next
        { s with dig := s.dig.set 1 v, trace := s.trace ++ [⟨0x35, v, true⟩], answers := s.answers.drop 1, writes := s.writes + 1 }) ∧
    (s.Completes (plannedEntries (.wrDig2 v)) →
      exec (.wrDig2 v) s = .next
        { s with dig := s.dig.set 2 v, trace := s.trace ++ [⟨0x36, v, true⟩], answers := s.answers.drop 1, writes := s.writes + 1 }) ∧
    (s.Completes (plannedEntries (.wrDig3 v)) →
      exec (.wrDig3 v) s = .next
        { s with dig := s.dig.set 3 v, trace := s.trace ++ [⟨0x37, v, true⟩], answers := s.answers.drop 1, writes := s.writes + 1 })

/-- R31: a transaction that fails leaves any value in its register, is on the trace as failed, and raises the bus fault (its
status BUS_FAULT outside a command is the model's choice, log 10). -/
def Obligations.TransactionFault : Prop :=
  ∀ (v : Byte) (s : State),
    (s.FailsAt 0 (plannedEntries (.wrCtrl v)) →
      exec (.wrCtrl v) s = .next
        { s with
          ctrl := Config.failedWriteByte s.writes 0x24 v s.ctrl
          trace := s.trace ++ [⟨0x24, v, false⟩], returns := s.returns ++ [⟨.busFault, none⟩]
          answers := s.answers.drop 1, writes := s.writes + 1 }) ∧
    ∀ (i : Instr) (k : Fin 4),
      (i, k) ∈ [(Instr.wrDig0 v, (0 : Fin 4)), (Instr.wrDig1 v, 1), (Instr.wrDig2 v, 2), (Instr.wrDig3 v, 3)] →
      s.FailsAt 0 (plannedEntries i) →
      exec i s = .next
        { s with
          dig := s.dig.set k (Config.failedWriteByte s.writes (0x34 + BitVec.ofNat 8 k.val) v s.dig[k])
          trace := s.trace ++ [⟨0x34 + BitVec.ofNat 8 k.val, v, false⟩], returns := s.returns ++ [⟨.busFault, none⟩]
          answers := s.answers.drop 1, writes := s.writes + 1 }

/-- R37, U12: a transaction to an address that is none of the five stops the machine (the model's choice, log 11). -/
def Obligations.UnmappedAddressFaults : Prop :=
  ∀ (s : State) (a v : Byte) (rest : List Byte), s.blocked = none → s.txn = a :: v :: rest →
    a ∉ [0x24, 0x34, 0x35, 0x36, 0x37] → step s = .fault (.unmappedAddress a)

/-! ### Faults and refusals (60_exceptions.md) -/

/-- R154: a command is refused exactly in the handle states the table says, and then nothing but its status happens. -/
def Obligations.AdmissionTable : Prop :=
  ∀ (i : Instr) (s t : State), i.isCommand = true → s.blocked = none → exec i s = .next t →
    (admits s.hs i = false ↔ t.returns = s.returns ++ [⟨.refused, none⟩]) ∧
    (admits s.hs i = false → t = { s with returns := s.returns ++ [⟨.refused, none⟩] })

/-- R152: a bus fault at write k of any command (bare transactions are in `TransactionFault`). The writes before it are done and stay, none after it is issued, the
register it was for is the only one whose value the rules leave open; `mode` is unchanged, `hs` too (for INIT that is its value
before); the status is BUS_FAULT, and the block is not stuck. -/
def Obligations.BusFaultAbandonsCommand : Prop :=
  ∀ (i : Instr) (k : Nat) (s : State) (failing : BusEntry), i.isCommand = true → admits s.hs i = true →
    s.FailsAt k (plannedEntries i) → (plannedEntries i)[k]? = some failing →
    ∃ t : State, exec i s = .next t ∧
      t.trace = s.trace ++ (plannedEntries i).take k ++ [{ failing with ok := false }] ∧
      t.returns = s.returns ++ [⟨.busFault, none⟩] ∧
      t.hs = s.hs ∧ t.mode = s.mode ∧ t.blocked = s.blocked ∧ t.input = s.input ∧ t.txn = s.txn ∧
      t.answers = s.answers.drop (k + 1) ∧ t.writes = s.writes + k + 1 ∧
      ∀ a, a ≠ failing.addr →
        t.peek a = match lastWriteTo a ((plannedEntries i).take k) with
          | some e => some e.value
          | none => s.peek a

/-- R38, R181: an instruction whose writes all complete makes exactly its planned writes, in order: INIT 1, ENABLE 1, CLEAR 4,
SETDIGIT 0 or 1, PRINT 4 to 8, SHOWNUMBER 5 to 8, CLOSE, ENCODE and WITHDOT 0. -/
def Obligations.CompletedWritesInOrder : Prop :=
  (∀ (i : Instr) (s : State), admits s.hs i = true → s.Completes (plannedEntries i) →
    ∃ t : State, exec i s = .next t ∧ t.trace = s.trace ++ plannedEntries i ∧ t.blocked = s.blocked) ∧
  (∀ text, 4 ≤ (plannedEntries (.print text)).length ∧ (plannedEntries (.print text)).length ≤ 8) ∧
  (∀ num, 5 ≤ (plannedEntries (.showNumber num)).length ∧ (plannedEntries (.showNumber num)).length ≤ 8)

/-- R63, R42: every command returns exactly one status, unless the transport never returns from one of its writes; then the
command returns nothing and no step follows. -/
def Obligations.OneStatusOrHang : Prop :=
  ∀ (i : Instr) (s t : State), i.isCommand = true → s.blocked = none → exec i s = .next t →
    (t.blocked = none ∧ ∃ r, t.returns = s.returns ++ [r]) ∨
    ∃ addr value, t.blocked = some (addr, value) ∧ t.returns = s.returns ∧
      step t = .fault (.transportNeverReturned addr value)

/-- R42, R179: an instruction hangs at write k, the writes before it having completed. Nothing is returned, those writes are the
only ones on the trace and stay in effect, `mode` is unchanged, no step follows. That `hs` of a hung INIT is OPEN is deduced
from the order of its pseudocode (R90; log 3), as is where the hanging write itself is held. -/
def Obligations.NeverReturningWriteHangs : Prop :=
  ∀ (i : Instr) (k : Nat) (s : State) (stuck : BusEntry), admits s.hs i = true → s.HangsAt k (plannedEntries i) →
    (plannedEntries i)[k]? = some stuck →
    ∃ t : State, exec i s = .next t ∧ t.blocked = some (stuck.addr, stuck.value) ∧
      t.trace = s.trace ++ (plannedEntries i).take k ∧ t.returns = s.returns ∧ t.mode = s.mode ∧
      t.hs = (if i = .init then .opened else s.hs) ∧ t.input = s.input ∧ t.txn = s.txn ∧
      step t = .fault (.transportNeverReturned stuck.addr stuck.value) ∧
      ∀ a, a ≠ stuck.addr →
        t.peek a = match lastWriteTo a ((plannedEntries i).take k) with
          | some e => some e.value
          | none => s.peek a

/-- R63: the bytes the caller gets for each status, and for a result. -/
def Obligations.ReturnBytes : Prop :=
  (Return.mk .ok none).bytes = [0x00] ∧ (Return.mk .busFault none).bytes = [0x01] ∧
  (Return.mk .refused none).bytes = [0x02] ∧ ∀ b, (Return.mk .ok (some b)).bytes = [0x00, b]

/-! ### Frames: what an instruction leaves unchanged, whatever the environment answers -/

/-- R90, R91, R30: INIT, ENABLE and WR_CTRL reach the control register only: every other address reads as before. `hs` changes
only by INIT, `mode` only by INIT and ENABLE. -/
def Obligations.ControlWritersFrame : Prop :=
  ∀ (i : Instr) (s t : State),
    (i = .init ∨ (∃ on b, i = .enable on b) ∨ ∃ v, i = .wrCtrl v) → exec i s = .next t →
    t.dig = s.dig ∧ (∀ a, a ≠ 0x24 → t.peek a = s.peek a) ∧ t.input = s.input ∧ t.txn = s.txn ∧
    (i ≠ .init → t.hs = s.hs) ∧ ((∃ v, i = .wrCtrl v) → t.mode = s.mode)

/-- R112, R125, R129, R94: CLEAR, PRINT and SHOWNUMBER reach the four digit registers only: `CTRL`, `hs` and `mode` are
unchanged, and every other address reads as before. -/
def Obligations.DigitWritersFrame : Prop :=
  ∀ (i : Instr) (s t : State),
    (i = .clear ∨ (∃ text, i = .print text) ∨ ∃ n, i = .showNumber n) → exec i s = .next t →
    t.ctrl = s.ctrl ∧ t.hs = s.hs ∧ t.mode = s.mode ∧ t.input = s.input ∧ t.txn = s.txn ∧
    ∀ a, a ∉ [0x34, 0x35, 0x36, 0x37] → t.peek a = s.peek a

/-- R111, R51: SETDIGIT reaches the register its index selects, WR_DIGi the register of its address: `CTRL`, `hs` and `mode` are
unchanged and every other address reads as before; where the index selects nothing, every address does. -/
def Obligations.OnePositionFrame : Prop :=
  ∀ (i : Instr) (target : Option Byte) (s t : State),
    ((∃ k c d, i = .setDigit k c d ∧ target = (digSel k).map ChipReg.addr) ∨
      ∃ v, (i, target) ∈ [(Instr.wrDig0 v, some 0x34), (Instr.wrDig1 v, some 0x35), (Instr.wrDig2 v, some 0x36),
        (Instr.wrDig3 v, some 0x37)]) →
    exec i s = .next t →
    t.ctrl = s.ctrl ∧ t.hs = s.hs ∧ t.mode = s.mode ∧ t.input = s.input ∧ t.txn = s.txn ∧
    ∀ a, target ≠ some a → t.peek a = s.peek a

/-! ### Whole-machine rules -/

/-- R38, R9: a step only ever adds to the end of the trace and of what was returned: nothing is reordered, merged or dropped. -/
def Obligations.StepOnlyExtendsTrace : Prop :=
  ∀ s t : State, step s = .next t →
    (∃ more, t.trace = s.trace ++ more) ∧ ∃ more, t.returns = s.returns ++ more

/-- R95, R13: nothing depends on what the display is doing: two states that differ only in the chip's registers and the ghost
mode give states that differ only there. -/
def Obligations.NothingDependsOnDisplayState : Prop :=
  ∀ (i : Instr) (s : State) (ctrl : Byte) (dig : Vector Byte 4) (m : Mode),
    ∃ t u : State, exec i s = .next t ∧ exec i { s with ctrl := ctrl, dig := dig, mode := m } = .next u ∧
      { t with ctrl := ctrl, dig := dig, mode := m } = { u with ctrl := ctrl, dig := dig, mode := m }

/-- R44: the chip's registers follow the trace, from the values `base` they held when the run began; every step keeps it. -/
def Obligations.StepKeepsRegistersFollowTrace : Prop :=
  ∀ (base : ChipReg → Byte) (s t : State), s.RegistersFollowTrace base → step s = .next t → t.RegistersFollowTrace base

/-- R44, R19: at reset the registers are what the empty trace makes of the power-on values. -/
def Obligations.ResetRegistersFollowTrace : Prop :=
  State.reset.RegistersFollowTrace fun r =>
    match r with
    | .ctrl => Config.chipPorCtrl
    | .dig i => Config.chipPorDig i

/-- R21: while only commands reach the bus, every write on the trace is one the block can make, and every step keeps it so. -/
def Obligations.StepKeepsBusLegal : Prop :=
  ∀ s t : State, s.BusLegal → step s = .next t → t.BusLegal

/-- R21: at reset only commands reach the bus and the trace is empty. -/
def Obligations.ResetIsBusLegal : Prop := State.reset.BusLegal

/-- R15: while only commands reach the bus, `CTRL` is the byte of `mode` whenever its last write completed; every step keeps it. -/
def Obligations.StepKeepsCtrlFollowsMode : Prop :=
  ∀ s t : State, s.CtrlFollowsMode → step s = .next t → t.CtrlFollowsMode

/-- R15, R170: at reset the relation holds, for no write to `CTRL` has been made. -/
def Obligations.ResetCtrlFollowsMode : Prop := State.reset.CtrlFollowsMode

/-- R31, R9: every bus write issued is on the trace, but for one that never returned; every step keeps it (the count is the
model's own, log 1). -/
def Obligations.StepKeepsWritesCounted : Prop :=
  ∀ s t : State, s.WritesCounted → step s = .next t → t.WritesCounted

/-- At reset no write has been issued, the trace is empty and nothing is stuck, so the count holds (the count is the model's own,
log 1). -/
def Obligations.ResetWritesCounted : Prop :=
  State.reset.WritesCounted ∧ State.reset.writes = 0 ∧ State.reset.trace = [] ∧ State.reset.blocked = none

/-! ### Waiting -/

/-- R170, R61: with nothing stuck or pending, and no command or fewer bytes than the length of the command that has begun, a step
leaves any state as it is (waiting as a step to the same state is the model's choice, log 8; waiting for the rest of a command
is too, log 9). -/
def Obligations.WaitingChangesNothing : Prop :=
  ∀ s : State, s.blocked = none → s.txn = [] →
    s.input.length < commandLength (s.input.headD 0) (s.input.tail.headD 0) → step s = .next s

/-- Nothing of half a transaction is done, and nothing else meanwhile (R50 has no half transaction; the model's choice, log 21). -/
def Obligations.HalfTransactionWaits : Prop :=
  ∀ (s : State) (addr : Byte), s.blocked = none → s.txn = [addr] → step s = .next s
end

