-- ==== Sys2Proof/Laws/State.lean ====
section
/-! SUPPORT. One lemma per field per update of the state, and the observer's reads after a write. -/

namespace Sys2Proof.Machine

variable (s : State) (r : ChipReg) (v b : Byte) (e : BusEntry) (st : Status)

/-! ### report and reportResult -/

@[simp] theorem State.report_ctrl : (s.report st).ctrl = s.ctrl := rfl
@[simp] theorem State.report_dig : (s.report st).dig = s.dig := rfl
@[simp] theorem State.report_hs : (s.report st).hs = s.hs := rfl
@[simp] theorem State.report_mode : (s.report st).mode = s.mode := rfl
@[simp] theorem State.report_trace : (s.report st).trace = s.trace := rfl
@[simp] theorem State.report_returns : (s.report st).returns = s.returns ++ [⟨st, none⟩] := rfl
@[simp] theorem State.report_input : (s.report st).input = s.input := rfl
@[simp] theorem State.report_txn : (s.report st).txn = s.txn := rfl
@[simp] theorem State.report_answers : (s.report st).answers = s.answers := rfl
@[simp] theorem State.report_writes : (s.report st).writes = s.writes := rfl
@[simp] theorem State.report_blocked : (s.report st).blocked = s.blocked := rfl

@[simp] theorem State.reportResult_ctrl : (s.reportResult b).ctrl = s.ctrl := rfl
@[simp] theorem State.reportResult_dig : (s.reportResult b).dig = s.dig := rfl
@[simp] theorem State.reportResult_hs : (s.reportResult b).hs = s.hs := rfl
@[simp] theorem State.reportResult_mode : (s.reportResult b).mode = s.mode := rfl
@[simp] theorem State.reportResult_trace : (s.reportResult b).trace = s.trace := rfl
@[simp] theorem State.reportResult_returns : (s.reportResult b).returns = s.returns ++ [⟨.ok, some b⟩] := rfl
@[simp] theorem State.reportResult_input : (s.reportResult b).input = s.input := rfl
@[simp] theorem State.reportResult_txn : (s.reportResult b).txn = s.txn := rfl
@[simp] theorem State.reportResult_answers : (s.reportResult b).answers = s.answers := rfl
@[simp] theorem State.reportResult_writes : (s.reportResult b).writes = s.writes := rfl
@[simp] theorem State.reportResult_blocked : (s.reportResult b).blocked = s.blocked := rfl

/-! ### setReg -/

@[simp] theorem State.setReg_ctrl_ctrl : (s.setReg .ctrl v).ctrl = v := rfl
@[simp] theorem State.setReg_ctrl_dig : (s.setReg .ctrl v).dig = s.dig := rfl
@[simp] theorem State.setReg_dig_ctrl (i : Fin 4) : (s.setReg (.dig i) v).ctrl = s.ctrl := rfl
@[simp] theorem State.setReg_dig_dig (i : Fin 4) : (s.setReg (.dig i) v).dig = s.dig.set i v := rfl
@[simp] theorem State.setReg_hs : (s.setReg r v).hs = s.hs := by cases r <;> rfl
@[simp] theorem State.setReg_mode : (s.setReg r v).mode = s.mode := by cases r <;> rfl
@[simp] theorem State.setReg_trace : (s.setReg r v).trace = s.trace := by cases r <;> rfl
@[simp] theorem State.setReg_returns : (s.setReg r v).returns = s.returns := by cases r <;> rfl
@[simp] theorem State.setReg_input : (s.setReg r v).input = s.input := by cases r <;> rfl
@[simp] theorem State.setReg_txn : (s.setReg r v).txn = s.txn := by cases r <;> rfl
@[simp] theorem State.setReg_answers : (s.setReg r v).answers = s.answers := by cases r <;> rfl
@[simp] theorem State.setReg_writes : (s.setReg r v).writes = s.writes := by cases r <;> rfl
@[simp] theorem State.setReg_blocked : (s.setReg r v).blocked = s.blocked := by cases r <;> rfl

/-! ### record, issueWrite and hang -/

@[simp] theorem State.record_ctrl : (s.record e).ctrl = s.ctrl := rfl
@[simp] theorem State.record_dig : (s.record e).dig = s.dig := rfl
@[simp] theorem State.record_hs : (s.record e).hs = s.hs := rfl
@[simp] theorem State.record_mode : (s.record e).mode = s.mode := rfl
@[simp] theorem State.record_trace : (s.record e).trace = s.trace ++ [e] := rfl
@[simp] theorem State.record_returns : (s.record e).returns = s.returns := rfl
@[simp] theorem State.record_input : (s.record e).input = s.input := rfl
@[simp] theorem State.record_txn : (s.record e).txn = s.txn := rfl
@[simp] theorem State.record_answers : (s.record e).answers = s.answers := rfl
@[simp] theorem State.record_writes : (s.record e).writes = s.writes := rfl
@[simp] theorem State.record_blocked : (s.record e).blocked = s.blocked := rfl

@[simp] theorem State.issueWrite_ctrl : s.issueWrite.ctrl = s.ctrl := rfl
@[simp] theorem State.issueWrite_dig : s.issueWrite.dig = s.dig := rfl
@[simp] theorem State.issueWrite_hs : s.issueWrite.hs = s.hs := rfl
@[simp] theorem State.issueWrite_mode : s.issueWrite.mode = s.mode := rfl
@[simp] theorem State.issueWrite_trace : s.issueWrite.trace = s.trace := rfl
@[simp] theorem State.issueWrite_returns : s.issueWrite.returns = s.returns := rfl
@[simp] theorem State.issueWrite_input : s.issueWrite.input = s.input := rfl
@[simp] theorem State.issueWrite_txn : s.issueWrite.txn = s.txn := rfl
@[simp] theorem State.issueWrite_answers : s.issueWrite.answers = s.answers.tail := rfl
@[simp] theorem State.issueWrite_writes : s.issueWrite.writes = s.writes + 1 := rfl
@[simp] theorem State.issueWrite_blocked : s.issueWrite.blocked = s.blocked := rfl

@[simp] theorem State.hang_ctrl : (s.hang r v).ctrl = s.ctrl := rfl
@[simp] theorem State.hang_dig : (s.hang r v).dig = s.dig := rfl
@[simp] theorem State.hang_hs : (s.hang r v).hs = s.hs := rfl
@[simp] theorem State.hang_mode : (s.hang r v).mode = s.mode := rfl
@[simp] theorem State.hang_trace : (s.hang r v).trace = s.trace := rfl
@[simp] theorem State.hang_returns : (s.hang r v).returns = s.returns := rfl
@[simp] theorem State.hang_input : (s.hang r v).input = s.input := rfl
@[simp] theorem State.hang_txn : (s.hang r v).txn = s.txn := rfl
@[simp] theorem State.hang_answers : (s.hang r v).answers = s.answers := rfl
@[simp] theorem State.hang_writes : (s.hang r v).writes = s.writes := rfl
@[simp] theorem State.hang_blocked : (s.hang r v).blocked = some (r.addr, v) := rfl

/-! ### The observer's reads -/

@[simp] theorem State.reg_report (q : ChipReg) : (s.report st).reg q = s.reg q := by cases q <;> rfl
@[simp] theorem State.reg_reportResult (q : ChipReg) : (s.reportResult b).reg q = s.reg q := by cases q <;> rfl
@[simp] theorem State.reg_record (q : ChipReg) : (s.record e).reg q = s.reg q := by cases q <;> rfl
@[simp] theorem State.reg_issueWrite (q : ChipReg) : s.issueWrite.reg q = s.reg q := by cases q <;> rfl
@[simp] theorem State.reg_hang (q : ChipReg) : (s.hang r v).reg q = s.reg q := by cases q <;> rfl

theorem State.reg_setReg (q : ChipReg) : (s.setReg r v).reg q = if q = r then v else s.reg q := by
  cases r with
  | ctrl => cases q <;> simp [State.reg, State.setReg]
  | dig i =>
    cases q with
    | ctrl => simp [State.reg, State.setReg]
    | dig j =>
      by_cases h : j = i
      · subst h; simp [State.reg, State.setReg]
      · have : (i : Nat) ≠ j := fun e => h (Fin.ext e.symm)
        simp [State.reg, State.setReg, h, Vector.getElem_set_ne, this]

theorem ChipReg.addr_injective {q r : ChipReg} (h : q.addr = r.addr) : q = r := by
  cases q with
  | ctrl => cases r with
    | ctrl => rfl
    | dig j => revert h; revert j; decide
  | dig i => cases r with
    | ctrl => revert h; revert i; decide
    | dig j => revert h; revert i j; decide

@[simp] theorem regAt_addr (r : ChipReg) : regAt r.addr = some r := by
  cases r with
  | ctrl => rfl
  | dig i => revert i; decide

/-- The only address whose byte a write to `r` can change is that of `r`. -/
theorem State.peek_setReg_ne {a : Byte} (h : a ≠ r.addr) : (s.setReg r v).peek a = s.peek a := by
  unfold State.peek
  cases hq : regAt a with
  | none => rfl
  | some q =>
    have hqa : q.addr = a := by
      unfold regAt at hq
      split_ifs at hq <;> simp_all <;> subst hq <;> rfl
    have : q ≠ r := fun e => h (by rw [← hqa, e])
    simp [State.reg_setReg, this]

end Sys2Proof.Machine
end

