-- ==== Sys2Proof/Laws/Bus.lean ====
section
/-! SUPPORT. What the bus operations can do, each said once: a bus write, a command's writes, running a command. -/

namespace Sys2Proof.Machine

/-! ### One bus write -/

/-- The state after a write that completed (20_memory.md R31). -/
def State.wrote (r : ChipReg) (v : Byte) (s : State) : State := (s.issueWrite.setReg r v).record ⟨r.addr, v, true⟩

/-- The state after a write that failed (20_memory.md R31). -/
def State.failedWrite (r : ChipReg) (v : Byte) (s : State) : State :=
  (s.issueWrite.setReg r (s.failedByte r v)).record ⟨r.addr, v, false⟩

/-- The state in a write that never returns (20_memory.md R42). -/
def State.hungWrite (r : ChipReg) (v : Byte) (s : State) : State :=
  (s.issueWrite.setReg r (s.failedByte r v)).hang r v

theorem State.busWrite_cases (s : State) (r : ChipReg) (v : Byte) :
    s.busWrite r v = (.completed, s.wrote r v) ∨ s.busWrite r v = (.failed, s.failedWrite r v) ∨
      s.busWrite r v = (.blocked, s.hungWrite r v) := by
  unfold State.busWrite
  split
  · exact .inl rfl
  · exact .inr (.inl rfl)
  · exact .inr (.inr rfl)

theorem State.busWrite_completes {s : State} {r : ChipReg} {v : Byte} (h : s.busAnswer r.addr v = .completes) :
    s.busWrite r v = (.completed, s.wrote r v) := by
  simp [State.busWrite, h, State.wrote]

theorem State.busWrite_fails {s : State} {r : ChipReg} {v : Byte} (h : s.busAnswer r.addr v = .fails) :
    s.busWrite r v = (.failed, s.failedWrite r v) := by
  simp [State.busWrite, h, State.failedWrite]

theorem State.busWrite_never {s : State} {r : ChipReg} {v : Byte} (h : s.busAnswer r.addr v = .never) :
    s.busWrite r v = (.blocked, s.hungWrite r v) := by
  simp [State.busWrite, h, State.hungWrite]

/-- A write leaves every other address as it reads. -/
theorem State.busWrite_peek_ne {s : State} {r : ChipReg} {v : Byte} {a : Byte} (h : a ≠ r.addr) :
    (s.busWrite r v).2.peek a = s.peek a := by
  rcases s.busWrite_cases r v with e | e | e <;> rw [e]
  · exact State.peek_setReg_ne s.issueWrite r v h
  · exact State.peek_setReg_ne s.issueWrite r _ h
  · exact State.peek_setReg_ne s.issueWrite r _ h

/-! ### The environment's answers -/

/-- An answer the state lists is the environment's. -/
theorem State.busAnswer_listed {s : State} {answer : BusAnswer} (h : s.answers.head? = some answer) (addr v : Byte) :
    s.busAnswer addr v = answer := by
  unfold State.busAnswer
  cases ha : s.answers with
  | nil => simp [ha] at h
  | cons a as => simpa [ha] using h

/-- The answers hang on the list of answers and the count of writes alone. -/
theorem State.answersTo_congr {s t : State} (ha : t.answers = s.answers) (hw : t.writes = s.writes)
    (entries : List BusEntry) : t.answersTo entries = s.answersTo entries := by
  induction entries generalizing s t with
  | nil => rfl
  | cons e more ih =>
    simp only [State.answersTo, State.busAnswer, ha, hw]
    rw [ih (s := s.issueWrite) (t := t.issueWrite) (by simp [ha]) (by simp [hw])]

@[simp] theorem State.answersTo_length (entries : List BusEntry) (s : State) :
    (s.answersTo entries).length = entries.length := by
  induction entries generalizing s with
  | nil => rfl
  | cons e more ih => simp [State.answersTo, ih]

/-- The answers after a write that completed are those after it was issued. -/
@[simp] theorem State.answersTo_wrote (entries : List BusEntry) (s : State) (r : ChipReg) (v : Byte) :
    (s.wrote r v).answersTo entries = s.issueWrite.answersTo entries :=
  State.answersTo_congr (by simp [State.wrote]) (by simp [State.wrote]) entries

/-! ### A command's writes -/

/-- The state after writes that all completed. -/
def State.afterWrites : List Write → State → State
  | [], s => s
  | (r, v) :: more, s => (s.wrote r v).afterWrites more

theorem State.afterWrites_append (ws vs : List Write) (s : State) :
    s.afterWrites (ws ++ vs) = (s.afterWrites ws).afterWrites vs := by
  induction ws generalizing s with
  | nil => rfl
  | cons w ws ih => exact ih _

@[simp] theorem State.afterWrites_trace (ws : List Write) (s : State) :
    (s.afterWrites ws).trace = s.trace ++ ws.map (entryOf true) := by
  induction ws generalizing s with
  | nil => simp [State.afterWrites]
  | cons w ws ih => simp [State.afterWrites, ih, State.wrote, entryOf]

@[simp] theorem State.afterWrites_writes (ws : List Write) (s : State) :
    (s.afterWrites ws).writes = s.writes + ws.length := by
  induction ws generalizing s with
  | nil => rfl
  | cons w ws ih => simp [State.afterWrites, ih, State.wrote]; omega

@[simp] theorem State.afterWrites_answers (ws : List Write) (s : State) :
    (s.afterWrites ws).answers = s.answers.drop ws.length := by
  induction ws generalizing s with
  | nil => rfl
  | cons w ws ih => simp [State.afterWrites, ih, State.wrote]

@[simp] theorem State.afterWrites_hs (ws : List Write) (s : State) : (s.afterWrites ws).hs = s.hs := by
  induction ws generalizing s with
  | nil => rfl
  | cons w ws ih => simp [State.afterWrites, ih, State.wrote]

@[simp] theorem State.afterWrites_mode (ws : List Write) (s : State) : (s.afterWrites ws).mode = s.mode := by
  induction ws generalizing s with
  | nil => rfl
  | cons w ws ih => simp [State.afterWrites, ih, State.wrote]

@[simp] theorem State.afterWrites_returns (ws : List Write) (s : State) : (s.afterWrites ws).returns = s.returns := by
  induction ws generalizing s with
  | nil => rfl
  | cons w ws ih => simp [State.afterWrites, ih, State.wrote]

@[simp] theorem State.afterWrites_input (ws : List Write) (s : State) : (s.afterWrites ws).input = s.input := by
  induction ws generalizing s with
  | nil => rfl
  | cons w ws ih => simp [State.afterWrites, ih, State.wrote]

@[simp] theorem State.afterWrites_txn (ws : List Write) (s : State) : (s.afterWrites ws).txn = s.txn := by
  induction ws generalizing s with
  | nil => rfl
  | cons w ws ih => simp [State.afterWrites, ih, State.wrote]

@[simp] theorem State.afterWrites_blocked (ws : List Write) (s : State) : (s.afterWrites ws).blocked = s.blocked := by
  induction ws generalizing s with
  | nil => rfl
  | cons w ws ih => simp [State.afterWrites, ih, State.wrote]

/-- What a register holds after completed writes: the byte of the last of them to it. -/
theorem State.reg_afterWrites (ws : List Write) (s : State) (q : ChipReg) :
    (s.afterWrites ws).reg q = ((ws.filter fun w => w.1 == q).getLast?.map Prod.snd).getD (s.reg q) := by
  induction ws generalizing s with
  | nil => rfl
  | cons w ws ih =>
    have hw : (s.wrote w.1 w.2).reg q = if q = w.1 then w.2 else s.reg q := by
      simp [State.wrote, State.reg_setReg]
    simp only [State.afterWrites, ih, hw, List.filter_cons]
    by_cases h : q = w.1
    · subst h
      simp only [beq_self_eq_true, if_true]
      cases hl : ws.filter (fun x => x.1 == w.1) with
      | nil => simp
      | cons x xs => simp [List.getLast?_eq_some_getLast]
    · have : (w.1 == q) = false := by simp; exact fun e => h e.symm
      simp [this, h]

/-- Everything a command's writes can do: all complete; or one fails, or never returns, after some that completed, and it is the
last one issued. -/
theorem State.busWrites_cases (ws : List Write) (s : State) :
    s.busWrites ws = (.completed, s.afterWrites ws) ∨
    (∃ k r v, ws[k]? = some (r, v) ∧ s.busWrites ws = (.failed, (s.afterWrites (ws.take k)).failedWrite r v)) ∨
    (∃ k r v, ws[k]? = some (r, v) ∧ s.busWrites ws = (.blocked, (s.afterWrites (ws.take k)).hungWrite r v)) := by
  induction ws generalizing s with
  | nil => exact .inl rfl
  | cons w ws ih =>
    obtain ⟨r, v⟩ := w
    rcases s.busWrite_cases r v with e | e | e
    · have hc : s.busWrites ((r, v) :: ws) = (s.wrote r v).busWrites ws := by simp [State.busWrites, e]
      rcases ih (s.wrote r v) with h | ⟨k, r', v', hk, h⟩ | ⟨k, r', v', hk, h⟩
      · exact .inl (by rw [hc, h]; rfl)
      · exact .inr (.inl ⟨k + 1, r', v', by simpa using hk, by rw [hc, h]; rfl⟩)
      · exact .inr (.inr ⟨k + 1, r', v', by simpa using hk, by rw [hc, h]; rfl⟩)
    · exact .inr (.inl ⟨0, r, v, rfl, by simp [State.busWrites, e, State.afterWrites]⟩)
    · exact .inr (.inr ⟨0, r, v, rfl, by simp [State.busWrites, e, State.afterWrites]⟩)

theorem State.busWrites_completes {ws : List Write} {s : State} (h : s.Completes (ws.map (entryOf true))) :
    s.busWrites ws = (.completed, s.afterWrites ws) := by
  induction ws generalizing s with
  | nil => rfl
  | cons w ws ih =>
    obtain ⟨r, v⟩ := w
    simp only [State.Completes, List.map_cons, State.answersTo, entryOf, List.length_cons, List.replicate_succ,
      List.cons.injEq] at h
    simp only [State.busWrites, State.busWrite_completes h.1, State.afterWrites]
    exact ih (s := s.wrote r v) (by simpa [State.Completes] using h.2)

theorem State.busWrites_failsAt {ws : List Write} {s : State} {k : Nat} {r : ChipReg} {v : Byte}
    (h : s.FailsAt k (ws.map (entryOf true))) (hk : ws[k]? = some (r, v)) :
    s.busWrites ws = (.failed, (s.afterWrites (ws.take k)).failedWrite r v) := by
  induction ws generalizing s k with
  | nil => simp at hk
  | cons w ws ih =>
    obtain ⟨r', v'⟩ := w
    cases k with
    | zero =>
      simp only [List.getElem?_cons_zero, Option.some.injEq, Prod.mk.injEq] at hk
      obtain ⟨rfl, rfl⟩ := hk
      simp only [State.FailsAt, List.map_cons, State.answersTo, entryOf, List.take_succ_cons, List.take_zero,
        List.replicate_zero, List.nil_append, List.cons.injEq, and_true] at h
      simp [State.busWrites, State.busWrite_fails h, State.afterWrites]
    | succ k =>
      simp only [State.FailsAt, List.map_cons, State.answersTo, entryOf, List.take_succ_cons, List.replicate_succ,
        List.cons_append, List.cons.injEq] at h
      simp only [State.busWrites, State.busWrite_completes h.1, List.take_succ_cons, State.afterWrites]
      exact ih (s := s.wrote r' v') (by simpa [State.FailsAt] using h.2) (by simpa using hk)

theorem State.busWrites_hangsAt {ws : List Write} {s : State} {k : Nat} {r : ChipReg} {v : Byte}
    (h : s.HangsAt k (ws.map (entryOf true))) (hk : ws[k]? = some (r, v)) :
    s.busWrites ws = (.blocked, (s.afterWrites (ws.take k)).hungWrite r v) := by
  induction ws generalizing s k with
  | nil => simp at hk
  | cons w ws ih =>
    obtain ⟨r', v'⟩ := w
    cases k with
    | zero =>
      simp only [List.getElem?_cons_zero, Option.some.injEq, Prod.mk.injEq] at hk
      obtain ⟨rfl, rfl⟩ := hk
      simp only [State.HangsAt, List.map_cons, State.answersTo, entryOf, List.take_succ_cons, List.take_zero,
        List.replicate_zero, List.nil_append, List.cons.injEq, and_true] at h
      simp [State.busWrites, State.busWrite_never h, State.afterWrites]
    | succ k =>
      simp only [State.HangsAt, List.map_cons, State.answersTo, entryOf, List.take_succ_cons, List.replicate_succ,
        List.cons_append, List.cons.injEq] at h
      simp only [State.busWrites, State.busWrite_completes h.1, List.take_succ_cons, State.afterWrites]
      exact ih (s := s.wrote r' v') (by simpa [State.HangsAt] using h.2) (by simpa using hk)

/-- A property that one bus write keeps is kept by a command's writes. -/
theorem State.busWrites_induction {P : State → Prop} {ws : List Write} {s : State} (base : P s)
    (keep : ∀ t r v, (r, v) ∈ ws → P t → P (t.busWrite r v).2) : P (s.busWrites ws).2 := by
  induction ws generalizing s with
  | nil => exact base
  | cons w ws ih =>
    obtain ⟨r, v⟩ := w
    have h1 := keep s r v (by simp) base
    rcases s.busWrite_cases r v with e | e | e <;> simp only [State.busWrites, e] at h1 ⊢
    · exact ih h1 fun t r v hm => keep t r v (by simp [hm])
    · exact h1
    · exact h1

/-! ### Running a command -/

/-- Everything running a command's writes can do. -/
theorem State.runWrites_cases (ws : List Write) (after undo : State → State) (s : State) :
    (s.busWrites ws = (.completed, s.afterWrites ws) ∧ s.runWrites ws after undo = (after (s.afterWrites ws)).report .ok) ∨
    (∃ k r v, ws[k]? = some (r, v) ∧ s.busWrites ws = (.failed, (s.afterWrites (ws.take k)).failedWrite r v) ∧
      s.runWrites ws after undo = (undo ((s.afterWrites (ws.take k)).failedWrite r v)).report .busFault) ∨
    (∃ k r v, ws[k]? = some (r, v) ∧ s.busWrites ws = (.blocked, (s.afterWrites (ws.take k)).hungWrite r v) ∧
      s.runWrites ws after undo = (s.afterWrites (ws.take k)).hungWrite r v) := by
  rcases s.busWrites_cases ws with e | ⟨k, r, v, hk, e⟩ | ⟨k, r, v, hk, e⟩
  · exact .inl ⟨e, by simp [State.runWrites, e]⟩
  · exact .inr (.inl ⟨k, r, v, hk, e, by simp [State.runWrites, e, State.takeBusFault]⟩)
  · exact .inr (.inr ⟨k, r, v, hk, e, by simp [State.runWrites, e]⟩)

theorem State.runWrites_completes {ws : List Write} {s : State} (after undo : State → State)
    (h : s.Completes (ws.map (entryOf true))) :
    s.runWrites ws after undo = (after (s.afterWrites ws)).report .ok := by
  simp [State.runWrites, State.busWrites_completes h]

theorem State.runWrites_failsAt {ws : List Write} {s : State} {k : Nat} {r : ChipReg} {v : Byte}
    (after undo : State → State) (h : s.FailsAt k (ws.map (entryOf true))) (hk : ws[k]? = some (r, v)) :
    s.runWrites ws after undo = (undo ((s.afterWrites (ws.take k)).failedWrite r v)).report .busFault := by
  simp [State.runWrites, State.busWrites_failsAt h hk, State.takeBusFault]

theorem State.runWrites_hangsAt {ws : List Write} {s : State} {k : Nat} {r : ChipReg} {v : Byte}
    (after undo : State → State) (h : s.HangsAt k (ws.map (entryOf true))) (hk : ws[k]? = some (r, v)) :
    s.runWrites ws after undo = (s.afterWrites (ws.take k)).hungWrite r v := by
  simp [State.runWrites, State.busWrites_hangsAt h hk]

theorem State.whenOpen_opened {run : State → State} {s : State} (h : s.hs = .opened) : s.whenOpen run = run s := by
  simp [State.whenOpen, h]

theorem State.whenOpen_refused {run : State → State} {s : State} (h : s.hs ≠ .opened) : s.whenOpen run = s.refuse := by
  simp [State.whenOpen, h]

end Sys2Proof.Machine
end

