-- ==== Sys2Proof/Laws/PerInstr.lean ====
section
/-! SUPPORT. What holds of every instruction as syntax, one lemma a constructor: its first byte is the one of its row in the
opcode table, and its length the one of its format (30_encoding.md R58, R61, R51). -/

namespace Sys2Proof.Laws.EncodingShape

/-- The first byte of an instruction's row. -/
def firstByte : Instr → Byte
  | .init => 0x01
  | .enable _ _ => 0x02
  | .clear => 0x03
  | .setDigit _ _ _ => 0x04
  | .print _ => 0x05
  | .showNumber _ => 0x06
  | .close => 0x07
  | .encode _ => 0x08
  | .withDot _ => 0x09
  | .wrCtrl _ => 0x24
  | .wrDig0 _ => 0x34
  | .wrDig1 _ => 0x35
  | .wrDig2 _ => 0x36
  | .wrDig3 _ => 0x37

/-- The length of an instruction's row, "2 + n" for PRINT. -/
def rowLength : Instr → Nat
  | .init => 1
  | .enable _ _ => 3
  | .clear => 1
  | .setDigit _ _ _ => 4
  | .print text => 2 + text.length
  | .showNumber _ => 5
  | .close => 1
  | .encode _ => 2
  | .withDot _ => 2
  | .wrCtrl _ => 2
  | .wrDig0 _ => 2
  | .wrDig1 _ => 2
  | .wrDig2 _ => 2
  | .wrDig3 _ => 2

/-- The encoding of an instruction has its row's first byte and length. -/
def Statement (i : Instr) : Prop := (Sys2Proof.encode i).head? = some (firstByte i) ∧ (Sys2Proof.encode i).length = rowLength i

theorem init : Statement .init := ⟨rfl, rfl⟩
theorem enable (on : Bool) (brightness : Int) : Statement (.enable on brightness) := ⟨rfl, rfl⟩
theorem clear : Statement .clear := ⟨rfl, rfl⟩
theorem setDigit (index : Int) (character : Byte) (dot : Bool) : Statement (.setDigit index character dot) := ⟨rfl, rfl⟩
theorem print (text : List Byte) : Statement (.print text) := ⟨rfl, by simp [Sys2Proof.encode, rowLength]; omega⟩
theorem showNumber (num : Int) : Statement (.showNumber num) := ⟨rfl, rfl⟩
theorem close : Statement .close := ⟨rfl, rfl⟩
theorem encode (character : Byte) : Statement (.encode character) := ⟨rfl, rfl⟩
theorem withDot (pattern : Byte) : Statement (.withDot pattern) := ⟨rfl, rfl⟩
theorem wrCtrl (data : Byte) : Statement (.wrCtrl data) := ⟨rfl, rfl⟩
theorem wrDig0 (data : Byte) : Statement (.wrDig0 data) := ⟨rfl, rfl⟩
theorem wrDig1 (data : Byte) : Statement (.wrDig1 data) := ⟨rfl, rfl⟩
theorem wrDig2 (data : Byte) : Statement (.wrDig2 data) := ⟨rfl, rfl⟩
theorem wrDig3 (data : Byte) : Statement (.wrDig3 data) := ⟨rfl, rfl⟩

end Sys2Proof.Laws.EncodingShape
end

