-- ==== Sys2Proof/Tests/Slice0.lean ====
section
/-! SUPPORT. The model's own tests: ill-formed terms refused, words written out from the spec's formats, single steps against
the vectors of 95_test_vectors.md, and a witness for the hypotheses of every statement that has any. -/

namespace Sys2Proof.Tests

open Sys2Proof.Machine

/-! ### WellFormed: one ill-formed term for each check, and its boundary -/

theorem test_wf_brightness_range :
    (Instr.enable true 128).wf = false ∧ (Instr.enable true (-129)).wf = false ∧ (Instr.enable true 127).wf = true := by decide
theorem test_wf_index_range :
    (Instr.setDigit (-129) 0x38 true).wf = false ∧ (Instr.setDigit 128 0x38 true).wf = false ∧
      (Instr.setDigit (-128) 0x38 true).wf = true := by decide
theorem test_wf_text_length :
    (Instr.print (List.replicate 256 0x41)).wf = false ∧ (Instr.print (List.replicate 255 0x41)).wf = true := by
  simp only [Instr.wf, fitsLength, List.length_replicate]
  decide
theorem test_wf_num_range :
    (Instr.showNumber 2147483648).wf = false ∧ (Instr.showNumber (-2147483649)).wf = false ∧
      (Instr.showNumber (-2147483648)).wf = true := by decide

/-! ### Decoding: words written out from R57 and R58, with the vectors' ids -/

theorem test_decode_init : decodeCommand [0x01] = .instr .init [] := by decide  -- K1
theorem test_decode_enable : decodeCommand [0x02, 0x00, 0x9C] = .instr (.enable false (-100)) [] := by decide  -- K7
theorem test_decode_clear : decodeCommand [0x03] = .instr .clear [] := by decide  -- M18
theorem test_decode_setDigit : decodeCommand [0x04, 0x02, 0x37, 0x01] = .instr (.setDigit 2 (codeOf '7') true) [] := by decide  -- M3
theorem test_decode_print :
    decodeCommand [0x05, 0x03, 0x41, 0x2E, 0x42] = .instr (.print [codeOf 'A', codeOf '.', codeOf 'B']) [] := by decide  -- T3
theorem test_decode_showNumber : decodeCommand [0x06, 0x00, 0x00, 0x00, 0x80] = .instr (.showNumber (-2147483648)) [] := by decide  -- SN20
theorem test_decode_close : decodeCommand [0x07] = .instr .close [] := by decide  -- K24
theorem test_decode_encode : decodeCommand [0x08, 0x41] = .instr (.encode (codeOf 'A')) [] := by decide  -- E6
theorem test_decode_withDot : decodeCommand [0x09, 0x55] = .instr (.withDot 0x55) [] := by decide  -- W6
theorem test_decode_wrCtrl : decodeTransaction [0x24, 0x07] = .instr (.wrCtrl 0x07) [] := by decide  -- S13
theorem test_decode_wrDig0 : decodeTransaction [0x34, 0x3F] = .instr (.wrDig0 0x3F) [] := by decide  -- M1
theorem test_decode_wrDig1 : decodeTransaction [0x35, 0x86] = .instr (.wrDig1 0x86) [] := by decide  -- M2
theorem test_decode_wrDig2 : decodeTransaction [0x36, 0x87] = .instr (.wrDig2 0x87) [] := by decide  -- M3
theorem test_decode_wrDig3 : decodeTransaction [0x37, 0x71] = .instr (.wrDig3 0x71) [] := by decide  -- M4
theorem test_decode_reserved :
    decodeCommand [0x00] = .reserved 0x00 [] ∧ decodeCommand [0x0A, 0x01] = .reserved 0x0A [0x01] ∧
      decodeCommand [0x24, 0x07] = .reserved 0x24 [0x07] ∧ decodeCommand [0xFF] = .reserved 0xFF [] := by decide  -- X1, X2
theorem test_decode_malformed :
    decodeCommand [0x02, 0x03, 0x07] = .malformed 0x02 [] ∧
      decodeCommand [0x04, 0x01, 0x38, 0x80, 0x07] = .malformed 0x04 [0x07] := by decide  -- X8, M16
theorem test_decode_incomplete :
    decodeCommand [] = .idle ∧ decodeCommand [0x05, 0x02, 0x41] = .incomplete 0x05 ∧
      decodeTransaction [0x24] = .incomplete ∧ decodeTransaction [0x25, 0x00] = .unmapped 0x25 := by decide
theorem test_decodeTableWord :
    decodeTableWord 8 0x01 = some .init ∧ decodeTableWord 24 0x9C0102 = some (.enable true (-100)) ∧
      decodeTableWord 8 0x05 = some (.print []) ∧ decodeTableWord 16 0x8635 = some (.wrDig1 0x86) ∧
      decodeTableWord 8 0x0A = none := by decide

/-! ### The glyph table: its keys, and the default bytes of R75 -/

theorem test_keys_are_supported_characters : glyphKeys.length = 35 ∧ ∀ c, isSupported c = true ↔ c ∈ supportedCharacters.map codeOf := by
  decide
theorem test_default_bytes :
    [codeOf '0', codeOf '9', codeOf '-', codeOf '_', codeOf 'A', codeOf 'a', codeOf 'C', codeOf 'c', codeOf 'H', codeOf 'h',
      codeOf 'L', codeOf 'l', codeOf 'r', codeOf '.', codeOf 'O'].map glyphDefault =
    [0x3F, 0x6F, 0x40, 0x08, 0x77, 0x77, 0x39, 0x58, 0x76, 0x74, 0x38, 0x30, 0x50, 0x00, 0x00] := by decide  -- E1 to E11

/-! ### Write lists under the default table -/

theorem test_print_hello :
    (printWrites glyphDefault ([0x48, 0x45, 0x4C, 0x4C, 0x4F])).map (fun w => (w.1.addr, w.2)) =
      [(0x34, 0x00), (0x35, 0x00), (0x36, 0x00), (0x37, 0x00), (0x34, 0x76), (0x35, 0x79), (0x36, 0x38), (0x37, 0x38)] := by
  decide  -- T4
theorem test_print_double_period :
    ((printWrites glyphDefault [0x41, 0x2E, 0x2E, 0x42]).drop 4).map (fun w => (w.1.addr, w.2)) =
      [(0x34, 0xF7), (0x35, 0x00), (0x36, 0x7C)] := by decide  -- T14
theorem test_showNumber_texts :
    numberText (-12345) = [0x32, 0x33, 0x34, 0x35] ∧ numberText (-999) = [0x2D, 0x39, 0x39, 0x39] ∧
      numberText 10005 = [0x30, 0x30, 0x30, 0x35] ∧ numberText 0 = [0x30] := by decide  -- SN18, SN15, SN9, SN1

/-! ### A small state -/

/-- A state with the given handle state and answers, other fields away from their reset values. -/
def sample (hs : HandleState) (answers : List BusAnswer) : State where
  ctrl := 0x55
  dig := #v[0x11, 0x22, 0x33, 0x44]
  hs := hs
  mode := .enabled 4
  trace := [⟨0x37, 0x80, true⟩]
  returns := [⟨.ok, none⟩]
  input := []
  txn := []
  answers := answers
  writes := 1
  blocked := none

/-- One field or so of an instruction's next state. -/
def after {α : Type} (i : Instr) (s : State) (f : State → α) : Option α :=
  match exec i s with
  | .next t => some (f t)
  | .fault _ => none
  | .refused _ => none

/-! ### Single steps -/

theorem test_init_closed :
    after .init (sample .closed [.completes]) (fun t => (t.ctrl, t.hs, t.mode, t.dig)) =
      some (0x07, .opened, .enabled 7, #v[0x11, 0x22, 0x33, 0x44]) := by decide  -- K3
theorem test_init_fault : after .init (sample .uninit [.fails]) (fun t => (t.hs, t.mode)) = some (.uninit, .enabled 4) := by decide  -- K4
theorem test_enable_clamps :
    after (.enable true 9) (sample .opened [.completes]) (fun t => (t.ctrl, t.mode)) = some (0x07, .enabled 7) := by decide  -- S12
theorem test_enable_negative :
    after (.enable true (-1)) (sample .opened [.completes]) (fun t => (t.ctrl, t.mode)) = some (0x01, .enabled 0) := by decide  -- K9
theorem test_close : after .close (sample .opened []) (fun t => (t.hs, t.ctrl, t.mode)) = some (.closed, 0x55, .enabled 4) := by decide  -- K24
theorem test_clear_third_write_fails :
    after .clear (sample .opened [.completes, .completes, .fails]) (fun t => (t.trace, t.dig[0], t.dig[1], t.dig[3])) =
      some ([⟨0x37, 0x80, true⟩, ⟨0x34, 0x00, true⟩, ⟨0x35, 0x00, true⟩, ⟨0x36, 0x00, false⟩], 0x00, 0x00, 0x44) := by decide  -- M20
theorem test_setDigit_unsupported_dot :
    after (.setDigit 3 0x78 true) (sample .opened [.completes]) (fun t => t.dig) = some #v[0x11, 0x22, 0x33, 0x80] := by decide  -- M5
theorem test_setDigit_refused_before_range :
    after (.setDigit 4 0x38 true) (sample .closed []) (fun t => t.returns) = some [⟨.ok, none⟩, ⟨.refused, none⟩] := by decide  -- M17
theorem test_print_two_unsupported :
    after (.print [0x2E, 0x2E]) (sample .opened (List.replicate 5 .completes)) (fun t => t.dig) =
      some #v[0x80, 0x00, 0x00, 0x00] := by decide  -- T11
theorem test_print_pattern :
    after (.print [0x41, 0x2E, 0x42]) (sample .opened (List.replicate 6 .completes)) (fun t => t.dig) =
      some #v[glyph 0x41 ||| 0x80, glyph 0x42, 0x00, 0x00] := by rfl  -- T3
theorem test_showNumber_pattern :
    after (.showNumber (-42)) (sample .opened (List.replicate 7 .completes)) (fun t => t.dig) =
      some #v[glyph 0x2D, glyph 0x34, glyph 0x32, 0x00] := by rfl  -- SN14
theorem test_encode_unsupported :
    after (.encode 0x4F) (sample .uninit []) (fun t => t.returns) = some [⟨.ok, none⟩, ⟨.ok, some 0x00⟩] := by decide  -- E11
theorem test_withDot : after (.withDot 0x3F) (sample .closed []) (fun t => t.returns.getLast?) = some (some ⟨.ok, some 0xBF⟩) := by decide  -- W2
theorem test_wrDig2 : after (.wrDig2 0x87) (sample .uninit [.completes]) (fun t => t.dig) = some #v[0x11, 0x22, 0x87, 0x44] := by decide

/-- The outcome of a step, for tests of the form of it. -/
def stepsTo (s : State) : Bool :=
  match step s with
  | .next _ => true
  | .fault _ => false
  | .refused _ => false

theorem test_first_instruction_runs_after_reset :
    stepsTo (State.reset.withFetchWord 8 0x01) = true ∧ stepsTo (State.reset.withFetchWord 8 0x06) = true ∧
      stepsTo (State.reset.withFetchWord 8 0x24) = true ∧ stepsTo (State.reset.withFetchWord 16 0x8637) = true := by decide
theorem test_reset_then_wait : stepsTo State.reset = true := by decide

/-! ### Witnesses: concrete states and operands that meet all the hypotheses of a statement together -/

theorem witness_DecodeOfEncodedCommand : (Instr.setDigit (-128) 0xFF true).isCommand = true ∧ (Instr.setDigit (-128) 0xFF true).wf = true := by
  decide
theorem witness_DecodeOfEncodedTransaction : (Instr.wrDig3 0xFF).isCommand = false := by decide
theorem witness_CommandBytesAreItsEncoding : decodeCommand [0x04, 0x7F, 0x00, 0x01, 0x07] = .instr (.setDigit 127 0x00 true) [0x07] := by
  decide
theorem witness_StepRunsDecodedCommand :
    let s := { sample .opened [] with input := [0x03, 0x07] }
    s.blocked = none ∧ s.txn = [] ∧ decodeCommand s.input = .instr .clear [0x07] := by decide
theorem witness_StepRunsDecodedTransaction :
    let s := { sample .opened [] with txn := [0x37, 0x01] }
    s.blocked = none ∧ decodeTransaction s.txn = .instr (.wrDig3 0x01) [] := by decide
theorem witness_ReservedOpcodeIsRefused :
    let s := { sample .opened [] with input := [0x0A] }
    s.blocked = none ∧ s.txn = [] ∧ s.input = [0x0A] ∧ ((0x0A : Byte) = 0x00 ∨ (0x0A : Byte) ≤ 0x0A) := by decide
theorem witness_NonzeroReservedBitIsRefused :
    (sample .opened []).blocked = none ∧ (sample .opened []).txn = [] ∧ (2 : Byte) ≤ 0x02 ∧ (2 : Byte) ≤ 0x80 ∧
      ({ sample .opened [] with input := [0x02, 0x02, 0x07] } : State).input = 0x02 :: 0x02 :: 0x07 :: [] ∧
      ({ sample .opened [] with input := [0x04, 0x01, 0x38, 0x80] } : State).input = 0x04 :: 0x01 :: 0x38 :: 0x80 :: [] := by decide
theorem witness_PlacedInstructionRunsNext : (sample .opened []).txn = [] ∧ decodeTableWord 8 0x02 = some (.enable false 0) := by decide
theorem witness_ResetDoesTheLeast : (sample .opened []).input = [] := by decide
theorem witness_InitOperation :
    (sample .opened []).hs = .opened ∧
      (sample .uninit [.completes]).hs ≠ .opened ∧ (sample .uninit [.completes]).Completes (plannedEntries .init) ∧
      (sample .closed [.fails]).hs ≠ .opened ∧ (sample .closed [.fails]).FailsAt 0 (plannedEntries .init) := by decide
theorem witness_ClampOnIntegers : (-1 : Int) < 0 ∧ (7 : Int) < 8 ∧ (0 : Int) ≤ 0 ∧ (7 : Int) ≤ 7 := by decide
theorem witness_EnableOperation :
    (sample .uninit []).hs ≠ .opened ∧ (sample .opened [.completes]).hs = .opened ∧
      (sample .opened [.completes]).Completes (plannedEntries (.enable false 3)) ∧
      (sample .opened [.completes]).Completes (plannedEntries (.enable true 9)) ∧
      (sample .opened [.fails]).FailsAt 0 (plannedEntries (.enable true (-1))) := by decide
theorem witness_LowBrightnessBitIsLost :
    stepsTo { sample .opened [.fails] with input := [0x02, 0x01, 0x04] } = true ∧
      after (.enable true (2 * 2)) (sample .opened [.completes]) (fun t => t.ctrl) = some 0x05 ∧
      after (.enable true (2 * 2 + 1)) (sample .opened [.completes]) (fun t => t.ctrl) = some 0x05 := by decide
theorem witness_CloseOperation : (sample .uninit []).hs ≠ .opened ∧ (sample .opened []).hs = .opened := by decide
theorem witness_EncodeOperation : codeOf 'O' ∉ supportedCharacters.map codeOf := by decide
theorem witness_DigSelAddresses :
    (digSel 0).map ChipReg.addr = some 0x34 ∧ (digSel 3).map ChipReg.addr = some 0x37 ∧ digSel (-1) = none ∧ digSel 4 = none ∧
      digSel 256 = none := by decide
theorem witness_SetDigitOperation :
    (sample .closed []).hs ≠ .opened ∧ (sample .opened [.completes]).hs = .opened ∧ ((-1 : Int) < 0 ∨ 3 < (-1 : Int)) ∧
      ((4 : Int) < 0 ∨ 3 < (4 : Int)) ∧
      (sample .opened [.completes]).Completes (plannedEntries (.setDigit (0 : Fin 4).val 0x41 true)) ∧
      (sample .opened [.fails]).FailsAt 0 (plannedEntries (.setDigit (3 : Fin 4).val 0x41 false)) := by decide
theorem witness_ClearOperation :
    (sample .closed []).hs ≠ .opened ∧ (sample .opened []).hs = .opened ∧
      (sample .opened (List.replicate 4 .completes)).Completes (plannedEntries .clear) ∧
      (sample .opened [.fails]).FailsAt (0 : Fin 4).val (plannedEntries .clear) ∧
      (sample .opened [.completes, .completes, .completes, .fails]).FailsAt (3 : Fin 4).val (plannedEntries .clear) := by decide
theorem witness_ScanIsFirstFourOfFold : ([codeOf 'A', codeOf '.'] : List Byte).head? ≠ some (codeOf '.') := by decide
theorem witness_PrintCounts :
    (scan [] 4 0).length = 0 ∧ (sample .opened (List.replicate 4 .completes)).hs = .opened ∧
      (sample .opened (List.replicate 4 .completes)).Completes (plannedEntries (.print [])) ∧
      (scan [0x31, 0x2E, 0x32, 0x2E, 0x33, 0x2E, 0x34, 0x2E, 0x35] 4 0).length = 4 ∧
      (sample .opened (List.replicate 8 .completes)).hs = .opened ∧
      (sample .opened (List.replicate 8 .completes)).Completes
        (plannedEntries (.print [0x31, 0x2E, 0x32, 0x2E, 0x33, 0x2E, 0x34, 0x2E, 0x35])) := by decide
theorem witness_PrintOperation :
    ([0x41] : List Byte).length ≤ 255 ∧ (sample .closed []).hs ≠ .opened ∧ (sample .opened []).hs = .opened ∧
      (sample .opened (List.replicate 8 .completes)).Completes (plannedEntries (.print [0x31, 0x32, 0x33, 0x34, 0x2E])) ∧
      (sample .opened (List.replicate 4 .completes)).Completes (plannedEntries (.print [])) ∧
      (sample .opened [.completes, .completes, .completes, .completes, .fails]).FailsAt 4 (plannedEntries (.print [0x41])) ∧
      ((shownEntries ((foldPeriods [0x41]).take 4))[4]?).isSome = true := by decide
theorem witness_PrintPassesThroughBlank :
    (sample .opened (List.replicate 5 .completes)).hs = .opened ∧
      (sample .opened (List.replicate 5 .completes)).Completes (plannedEntries (.print [0x2E])) := by decide
theorem witness_DecIsCanonicalDecimal : (0 : Int) < 1 ∧ (-1 : Int) < 0 := by decide
theorem witness_ShowNumberOperation :
    (sample .opened (List.replicate 7 .completes)).hs = .opened ∧
      (sample .opened (List.replicate 7 .completes)).Completes (plannedEntries (.showNumber (-42))) := by decide
theorem witness_LargeNumberShowsLowDigits :
    (sample .opened (List.replicate 8 .completes)).hs = .opened ∧
      (sample .opened (List.replicate 8 .completes)).Completes (plannedEntries (.showNumber 10000)) ∧
      (sample .opened (List.replicate 8 .completes)).Completes (plannedEntries (.showNumber (-1000))) ∧
      ((10000 : Int) ≤ 10000 ∨ (10000 : Int) ≤ -1000) ∧
      ((10000 : Int) ≤ -1000 ∨ (-1000 : Int) ≤ -1000) := by decide
theorem witness_TransactionWritesRegister :
    (sample .uninit [.completes]).Completes (plannedEntries (.wrCtrl 0x00)) ∧
      (sample .uninit [.completes]).Completes (plannedEntries (.wrDig0 0x01)) ∧
      (sample .uninit [.completes]).Completes (plannedEntries (.wrDig1 0x01)) ∧
      (sample .uninit [.completes]).Completes (plannedEntries (.wrDig2 0x01)) ∧
      (sample .uninit [.completes]).Completes (plannedEntries (.wrDig3 0xFF)) := by decide
theorem witness_TransactionFault :
    (sample .uninit [.fails]).FailsAt 0 (plannedEntries (.wrCtrl 0x01)) ∧
      (sample .uninit [.fails]).FailsAt 0 (plannedEntries (.wrDig3 0x01)) ∧
      (Instr.wrDig3 0x01, (3 : Fin 4)) ∈ [(Instr.wrDig0 0x01, (0 : Fin 4)), (Instr.wrDig1 0x01, 1), (Instr.wrDig2 0x01, 2), (Instr.wrDig3 0x01, 3)] := by
  decide
theorem witness_UnmappedAddressFaults :
    let s := { sample .opened [] with txn := [0x38, 0x00] }
    s.blocked = none ∧ s.txn = 0x38 :: 0x00 :: [] ∧ (0x38 : Byte) ∉ [0x24, 0x34, 0x35, 0x36, 0x37] := by decide
theorem witness_AdmissionTable :
    admits (sample .closed []).hs .clear = false ∧ (after .clear (sample .closed []) (fun t => t.hs)).isSome = true ∧
      admits (sample .opened []).hs .close = true ∧ (after .close (sample .opened []) (fun t => t.hs)).isSome = true := by decide
theorem witness_BusFaultAbandonsCommand :
    (Instr.print [0x48, 0x45]).isCommand = true ∧
      admits (sample .opened [.completes, .completes, .completes, .completes, .completes, .fails]).hs (.print [0x48, 0x45]) = true ∧
      (sample .opened [.completes, .completes, .completes, .completes, .completes, .fails]).FailsAt 5
        (plannedEntries (.print [0x48, 0x45])) ∧
      ((plannedEntries (.print [0x48, 0x45]))[5]?).isSome = true := by decide
theorem witness_CompletedWritesInOrder :
    admits (sample .opened [.completes]).hs (.setDigit 3 0x41 true) = true ∧
      (sample .opened [.completes]).Completes (plannedEntries (.setDigit 3 0x41 true)) := by decide
theorem witness_OneStatusOrHang :
    after (.enable true 4) (sample .opened [.completes]) (fun t => t.blocked) = some none ∧
      after (.enable true 4) (sample .opened [.never]) (fun t => t.blocked) = some (some (0x24, 0x05)) := by decide
theorem witness_NeverReturningWriteHangs :
    admits (sample .closed [.never]).hs .init = true ∧ (sample .closed [.never]).HangsAt 0 (plannedEntries .init) ∧
      (plannedEntries .init)[0]? = some ⟨0x24, 0x07, true⟩ ∧
      admits (sample .opened [.completes, .completes, .completes, .never]).hs .clear = true ∧
      (sample .opened [.completes, .completes, .completes, .never]).HangsAt 3 (plannedEntries .clear) ∧
      (plannedEntries .clear)[3]? = some ⟨0x37, 0x00, true⟩ := by decide
theorem witness_ControlWritersFrame :
    (after .init (sample .closed [.fails]) (fun t => t.hs)).isSome = true ∧
      (after (.enable false 0) (sample .opened [.completes]) (fun t => t.hs)).isSome = true ∧
      (after (.wrCtrl 0x01) (sample .uninit [.completes]) (fun t => t.hs)).isSome = true := by decide
theorem witness_DigitWritersFrame :
    (after .clear (sample .opened [.fails]) (fun t => t.hs)).isSome = true ∧
      (after (.print [0x41]) (sample .opened []) (fun t => t.hs)).isSome = true ∧
      (after (.showNumber 7) (sample .opened []) (fun t => t.hs)).isSome = true := by decide
theorem witness_OnePositionFrame :
    (digSel 3).map ChipReg.addr = some 0x37 ∧ (digSel 4).map ChipReg.addr = none ∧
      (after (.setDigit 3 0x41 true) (sample .opened [.fails]) (fun t => t.hs)).isSome = true ∧
      (after (.wrDig3 0x01) (sample .opened [.fails]) (fun t => t.hs)).isSome = true := by decide
theorem witness_step_of_a_command : stepsTo { sample .opened [.completes] with input := [0x02, 0x01, 0x04] } = true := by decide
theorem witness_StepKeepsRegistersFollowTrace :
    ({ sample .opened [.fails] with dig := #v[0x11, 0x22, 0x33, 0x80], input := [0x03] } : State).RegistersFollowTrace
        (fun r => match r with | .ctrl => 0x55 | .dig i => #v[0x11, 0x22, 0x33, 0x00][i]) ∧
      stepsTo { sample .opened [.fails] with dig := #v[0x11, 0x22, 0x33, 0x80], input := [0x03] } = true := by
  refine ⟨fun r _ => ?_, by decide⟩
  cases r with
  | ctrl => rfl
  | dig i => match i with
    | 0 => rfl
    | 1 => rfl
    | 2 => rfl
    | 3 => exact fun _ => rfl
theorem witness_StepKeepsBusLegal :
    ({ sample .opened [] with trace := [⟨0x24, 0x05, true⟩], input := [0x03] } : State).BusLegal ∧
      stepsTo { sample .opened [] with trace := [⟨0x24, 0x05, true⟩], input := [0x03] } = true :=
  ⟨⟨rfl, by simp [LegalEntry]⟩, by decide⟩
theorem witness_StepKeepsCtrlFollowsMode :
    ({ sample .opened [] with ctrl := 0x05, trace := [⟨0x24, 0x05, true⟩], input := [0x03] } : State).CtrlFollowsMode ∧
      stepsTo { sample .opened [] with ctrl := 0x05, trace := [⟨0x24, 0x05, true⟩], input := [0x03] } = true :=
  ⟨⟨rfl, fun _ _ _ _ => rfl⟩, by decide⟩
theorem witness_StepKeepsWritesCounted :
    ({ sample .opened [.never] with input := [0x03] } : State).WritesCounted ∧
      stepsTo { sample .opened [.never] with input := [0x03] } = true := ⟨rfl, by decide⟩
theorem witness_WaitingChangesNothing :
    let s := { sample .opened [] with input := [0x05, 0x02, 0x41] }
    s.blocked = none ∧ s.txn = [] ∧ s.input.length < commandLength (s.input.headD 0) (s.input.tail.headD 0) ∧
      (sample .opened []).input.length < commandLength ((sample .opened []).input.headD 0) 0 := by decide
theorem witness_HalfTransactionWaits :
    let s := { sample .opened [] with txn := [0x24], input := [0x07] }
    s.blocked = none ∧ s.txn = [0x24] := by decide

end Sys2Proof.Tests
end

/-! SUPPORT. What one step can do while no transaction is pending, said once: `step_commandRun` reduces a step to one of the
three shapes of `CommandRun`, and an invariant of such steps (10_state.md R15, R21) is then one lemma per shape. -/

namespace Sys2Proof.Machine

/-! ### The fields after one bus write -/

section Fields

variable (s : State) (r : ChipReg) (v : Byte) (i : Fin 4)

@[simp] theorem State.wrote_trace : (s.wrote r v).trace = s.trace ++ [⟨r.addr, v, true⟩] := by simp [State.wrote]
@[simp] theorem State.wrote_txn : (s.wrote r v).txn = s.txn := by simp [State.wrote]
@[simp] theorem State.wrote_mode : (s.wrote r v).mode = s.mode := by simp [State.wrote]
@[simp] theorem State.wrote_ctrl_ctrl : (s.wrote .ctrl v).ctrl = v := rfl
@[simp] theorem State.wrote_dig_ctrl : (s.wrote (.dig i) v).ctrl = s.ctrl := rfl

@[simp] theorem State.failedWrite_trace : (s.failedWrite r v).trace = s.trace ++ [⟨r.addr, v, false⟩] := by
  simp [State.failedWrite]
@[simp] theorem State.failedWrite_txn : (s.failedWrite r v).txn = s.txn := by simp [State.failedWrite]
@[simp] theorem State.failedWrite_mode : (s.failedWrite r v).mode = s.mode := by simp [State.failedWrite]
@[simp] theorem State.failedWrite_dig_ctrl : (s.failedWrite (.dig i) v).ctrl = s.ctrl := rfl

@[simp] theorem State.hungWrite_trace : (s.hungWrite r v).trace = s.trace := by simp [State.hungWrite]
@[simp] theorem State.hungWrite_txn : (s.hungWrite r v).txn = s.txn := by simp [State.hungWrite]
@[simp] theorem State.hungWrite_mode : (s.hungWrite r v).mode = s.mode := by simp [State.hungWrite]
@[simp] theorem State.hungWrite_blocked : (s.hungWrite r v).blocked = some (r.addr, v) := by simp [State.hungWrite]
@[simp] theorem State.hungWrite_dig_ctrl : (s.hungWrite (.dig i) v).ctrl = s.ctrl := rfl

end Fields

/-! ### Running a command's writes -/

/-- A property that one bus write keeps, and the end of the command with its status, is kept by running the command. -/
theorem State.runWrites_induction {P : State → Prop} {ws : List Write} {after undo : State → State} {s : State}
    (base : P s) (keep : ∀ t r v, (r, v) ∈ ws → P t → P (t.busWrite r v).2)
    (hafter : ∀ t, P t → P ((after t).report .ok)) (hundo : ∀ t, P t → P ((undo t).report .busFault)) :
    P (s.runWrites ws after undo) := by
  have hend : P (s.busWrites ws).2 := State.busWrites_induction base keep
  rcases s.runWrites_cases ws after undo with ⟨e, e'⟩ | ⟨k, r, v, -, e, e'⟩ | ⟨k, r, v, -, e, e'⟩ <;>
    rw [e] at hend <;> rw [e']
  · exact hafter _ hend
  · exact hundo _ hend
  · exact hend

/-- Everything running a command of one write can do. -/
theorem State.runWrites_singleton_cases (r : ChipReg) (v : Byte) (after undo : State → State) (s : State) :
    s.runWrites [(r, v)] after undo = (after (s.wrote r v)).report .ok ∨
    s.runWrites [(r, v)] after undo = (undo (s.failedWrite r v)).report .busFault ∨
    s.runWrites [(r, v)] after undo = s.hungWrite r v := by
  rcases s.busWrite_cases r v with e | e | e
  · exact .inl (by simp [State.runWrites, State.busWrites, e])
  · exact .inr (.inl (by simp [State.runWrites, State.busWrites, e, State.takeBusFault]))
  · exact .inr (.inr (by simp [State.runWrites, State.busWrites, e]))

/-! ### The writes of the commands -/

/-- A write of a digit byte, 0x00 or a glyph byte with or without its dot, to a digit register (10_state.md R21 c, d). -/
def IsDigitWrite (w : Write) : Prop :=
  (∃ i, w.1 = .dig i) ∧ (w.2 = 0x00 ∨ ∃ c, w.2 = glyph c ∨ w.2 = glyph c ||| 0x80)

theorem isDigitWrite_of_mem_clearWrites {w : Write} (h : w ∈ clearWrites) : IsDigitWrite w := by
  simp only [clearWrites, List.mem_cons, List.not_mem_nil, or_false] at h
  rcases h with rfl | rfl | rfl | rfl <;> exact ⟨⟨_, rfl⟩, .inl rfl⟩

theorem digitByte_glyph (c : Byte) (dot : Bool) :
    digitByte glyph c dot = glyph c ∨ digitByte glyph c dot = glyph c ||| 0x80 := by
  cases dot with
  | false => exact .inl rfl
  | true => exact .inr rfl

theorem exists_dig_of_digSel {index : Int} {r : ChipReg} (h : digSel index = some r) : ∃ i, r = .dig i := by
  unfold digSel at h
  split at h
  · exact ⟨_, (Option.some.inj h).symm⟩
  · simp at h

theorem isDigitWrite_of_mem_setDigitWrites {index : Int} {c : Byte} {dot : Bool} {w : Write}
    (h : w ∈ setDigitWrites glyph index c dot) : IsDigitWrite w := by
  unfold setDigitWrites at h
  split at h
  next r hr =>
    obtain rfl := List.mem_singleton.mp h
    exact ⟨exists_dig_of_digSel hr, .inr ⟨c, digitByte_glyph c dot⟩⟩
  next => simp at h

theorem isDigitWrite_of_mem_placeFrom {shown : List (Byte × Bool)} {pos : Nat} {w : Write}
    (h : w ∈ placeFrom glyph pos shown) : IsDigitWrite w := by
  induction shown generalizing pos with
  | nil => simp [placeFrom] at h
  | cons p more ih =>
    rcases List.mem_append.mp h with h | h
    · exact isDigitWrite_of_mem_setDigitWrites h
    · exact ih h

theorem isDigitWrite_of_mem_printWrites {text : List Byte} {w : Write} (h : w ∈ printWrites glyph text) :
    IsDigitWrite w := by
  rcases List.mem_append.mp h with h | h
  · exact isDigitWrite_of_mem_clearWrites h
  · exact isDigitWrite_of_mem_placeFrom h

/-! ### The three shapes of a command's run -/

/-- What a command does, whatever the environment answers: it leaves the bus alone; or it makes ENABLE's control write, the mode
following it (INIT makes that of ENABLE on 7, 41_control_writer.md R90); or it makes digit writes. -/
inductive CommandRun (s : State) : State → Prop
  | quiet (hs : HandleState) (returns : List Return) : CommandRun s { s with hs := hs, returns := returns }
  | control (hs : HandleState) (on : Bool) (brightness : Int) (undo : State → State)
      (hundo : ∀ t, ∃ hs', undo t = { t with hs := hs' }) :
      CommandRun s ({ s with hs := hs }.runWrites [(.ctrl, enableByte on brightness)]
        (fun t => { t with mode := enableMode on brightness }) undo)
  | digits (ws : List Write) (hws : ∀ w ∈ ws, IsDigitWrite w) : CommandRun s (s.runWrites ws id id)

theorem CommandRun.refuse (s : State) : CommandRun s s.refuse := .quiet s.hs _

theorem CommandRun.whenOpen {s : State} {run : State → State} (h : CommandRun s (run s)) :
    CommandRun s (s.whenOpen run) := by
  by_cases ho : s.hs = .opened
  · rwa [State.whenOpen_opened ho]
  · rw [State.whenOpen_refused ho]; exact .refuse s

theorem exec_commandRun {i : Instr} {s t : State} (hi : i.isCommand = true) (h : exec i s = .next t) :
    CommandRun s t := by
  cases i with
  | init =>
    cases h
    split
    · exact .refuse s
    · exact .control .opened true 7 _ fun t => ⟨s.hs, rfl⟩
  | enable on brightness => cases h; exact .whenOpen (.control s.hs on brightness id fun t => ⟨t.hs, rfl⟩)
  | clear => cases h; exact .whenOpen (.digits _ fun _ => isDigitWrite_of_mem_clearWrites)
  | setDigit index c dot => cases h; exact .whenOpen (.digits _ fun _ => isDigitWrite_of_mem_setDigitWrites)
  | print text => cases h; exact .whenOpen (.digits _ fun _ => isDigitWrite_of_mem_printWrites)
  | showNumber num => cases h; exact .whenOpen (.digits _ fun _ => isDigitWrite_of_mem_printWrites)
  | close => cases h; exact .whenOpen (.quiet .closed _)
  | encode c => cases h; exact .quiet s.hs _
  | withDot p => cases h; exact .quiet s.hs _
  | wrCtrl | wrDig0 | wrDig1 | wrDig2 | wrDig3 => simp [Instr.isCommand] at hi

/-! ### The step -/

theorem decodeEnable_isCommand {bytes : List Byte} {i : Instr} {rest : List Byte}
    (h : decodeEnable bytes = .instr i rest) : i.isCommand = true := by
  unfold decodeEnable at h
  split at h
  · split at h <;> cases h; rfl
  · cases h

theorem decodeSetDigit_isCommand {bytes : List Byte} {i : Instr} {rest : List Byte}
    (h : decodeSetDigit bytes = .instr i rest) : i.isCommand = true := by
  unfold decodeSetDigit at h
  split at h
  · split at h <;> cases h; rfl
  · cases h

theorem decodePrint_isCommand {bytes : List Byte} {i : Instr} {rest : List Byte}
    (h : decodePrint bytes = .instr i rest) : i.isCommand = true := by
  unfold decodePrint at h
  split at h
  · split at h <;> cases h; rfl
  · cases h

theorem decodeShowNumber_isCommand {bytes : List Byte} {i : Instr} {rest : List Byte}
    (h : decodeShowNumber bytes = .instr i rest) : i.isCommand = true := by
  unfold decodeShowNumber at h
  split at h <;> cases h
  rfl

theorem decodeArg_isCommand {op : Byte} {make : Byte → Instr} {bytes : List Byte} {i : Instr} {rest : List Byte}
    (hmake : ∀ b, (make b).isCommand = true) (h : decodeArg op make bytes = .instr i rest) : i.isCommand = true := by
  unfold decodeArg at h
  split at h <;> cases h
  exact hmake _

/-- The command side's decoder gives no bus transaction (30_encoding.md R58). -/
theorem decodeCommand_isCommand {bytes : List Byte} {i : Instr} {rest : List Byte}
    (h : decodeCommand bytes = .instr i rest) : i.isCommand = true := by
  cases bytes with
  | nil => cases h
  | cons op bytes =>
    simp only [decodeCommand, decodeOpcode] at h
    split_ifs at h
    · cases h; rfl
    · exact decodeEnable_isCommand h
    · cases h; rfl
    · exact decodeSetDigit_isCommand h
    · exact decodePrint_isCommand h
    · exact decodeShowNumber_isCommand h
    · cases h; rfl
    · exact decodeArg_isCommand (fun _ => rfl) h
    · exact decodeArg_isCommand (fun _ => rfl) h

theorem blocked_of_step {s t : State} (h : step s = .next t) : s.blocked = none := by
  cases hb : s.blocked with
  | none => rfl
  | some w => simp [step, State.fetch, hb] at h

/-- With no transaction pending, a step consumes caller's bytes and then does what one command does (R56, R60). -/
theorem step_commandRun {s t : State} (htxn : s.txn = []) (h : step s = .next t) :
    ∃ rest, CommandRun { s with input := rest } t := by
  have hfetch : s.fetch = s.fetchCommand := by simp [State.fetch, blocked_of_step h, htxn]
  rw [step, hfetch, State.fetchCommand] at h
  cases hd : decodeCommand s.input <;> rw [hd] at h
  case idle => cases h; exact ⟨s.input, .quiet s.hs s.returns⟩
  case incomplete op => cases h; exact ⟨s.input, .quiet s.hs s.returns⟩
  case reserved op rest => cases h; exact ⟨rest, .refuse _⟩
  case malformed op rest => cases h; exact ⟨rest, .refuse _⟩
  case instr i rest => exact ⟨rest, exec_commandRun (decodeCommand_isCommand hd) h⟩

end Sys2Proof.Machine

/-! SUPPORT. Only writes the block can make reach the bus (10_state.md R21). -/

namespace Sys2Proof.Machine

theorem legalEntry_of_isDigitWrite {w : Write} (ok : Bool) (h : IsDigitWrite w) : LegalEntry (entryOf ok w) := by
  obtain ⟨r, v⟩ := w
  obtain ⟨⟨i, rfl⟩, hv⟩ := h
  have haddr : ∀ i, (ChipReg.dig i).addr ∈ ([0x34, 0x35, 0x36, 0x37] : List Byte) := by decide
  exact .inr ⟨haddr i, hv⟩

theorem enableByte_mem (on : Bool) (brightness : Int) :
    enableByte on brightness ∈ ([0x00, 0x01, 0x03, 0x05, 0x07] : List Byte) := by
  have hon : ∀ b, onByte b ∈ ([0x00, 0x01, 0x03, 0x05, 0x07] : List Byte) := by decide
  cases on with
  | false => exact List.mem_cons_self
  | true => exact hon _

theorem State.BusLegal.busWrite {s : State} {r : ChipReg} {v : Byte} (h : s.BusLegal)
    (hw : ∀ ok, LegalEntry (entryOf ok (r, v))) : (s.busWrite r v).2.BusLegal := by
  obtain ⟨htxn, htrace⟩ := h
  have hsnoc (ok : Bool) : ∀ entry ∈ s.trace ++ [entryOf ok (r, v)], LegalEntry entry :=
    List.forall_mem_append.mpr ⟨htrace, List.forall_mem_singleton.mpr (hw ok)⟩
  rcases s.busWrite_cases r v with e | e | e <;> rw [e]
  · exact ⟨by simpa using htxn, by rw [State.wrote_trace]; exact hsnoc true⟩
  · exact ⟨by simpa using htxn, by rw [State.failedWrite_trace]; exact hsnoc false⟩
  · exact ⟨by simpa using htxn, by simpa using htrace⟩

theorem CommandRun.keeps_busLegal {s t : State} (run : CommandRun s t) (h : s.BusLegal) : t.BusLegal := by
  cases run with
  | quiet hs returns => exact h
  | control hs on brightness undo hundo =>
    refine State.runWrites_induction (P := State.BusLegal) h (fun u r v hm hu => ?_) (fun _ hu => hu) fun u hu => ?_
    · obtain ⟨rfl, rfl⟩ := Prod.mk.inj (List.mem_singleton.mp hm)
      exact hu.busWrite fun _ => .inl ⟨rfl, enableByte_mem on brightness⟩
    · obtain ⟨hs', e⟩ := hundo u
      rw [e]; exact hu
  | digits ws hws =>
    refine State.runWrites_induction h (fun u r v hm hu => ?_) (fun _ hu => hu) fun _ hu => hu
    exact hu.busWrite fun ok => legalEntry_of_isDigitWrite ok (hws _ hm)

/-- Settles O48: each of the three shapes of a step puts only legal writes on the trace. -/
theorem stepKeepsBusLegal : Obligations.StepKeepsBusLegal := by
  intro s t h hstep
  obtain ⟨rest, run⟩ := step_commandRun h.1 hstep
  exact run.keeps_busLegal h

/-- Settles O49: nothing is pending at reset and the trace is empty. -/
theorem resetIsBusLegal : Obligations.ResetIsBusLegal :=
  ⟨rfl, fun _ hmem => absurd hmem List.not_mem_nil⟩

end Sys2Proof.Machine

/-! SUPPORT. `CTRL` follows `mode` (10_state.md R15, 41_control_writer.md R94). -/

namespace Sys2Proof.Machine

/-! ### The last write to an address -/

theorem lastWriteTo_append_of_eq {a : Byte} {trace : List BusEntry} {entry : BusEntry} (h : entry.addr = a) :
    lastWriteTo a (trace ++ [entry]) = some entry := by
  simp [lastWriteTo, h]

theorem lastWriteTo_append_of_ne {a : Byte} {trace : List BusEntry} {entry : BusEntry} (h : entry.addr ≠ a) :
    lastWriteTo a (trace ++ [entry]) = lastWriteTo a trace := by
  simp [lastWriteTo, h]

theorem ChipReg.dig_addr_ne_ctrl (i : Fin 4) : (ChipReg.dig i).addr ≠ 0x24 := by
  revert i; decide

/-! ### The relation of `CTRL` and `mode` -/

/-- `State.CtrlFollowsMode` without its clause on a stuck transport: what digit writes keep even when one hangs. -/
def State.CtrlMatchesMode (s : State) : Prop :=
  s.txn = [] ∧ ∀ entry, lastWriteTo 0x24 s.trace = some entry → entry.ok = true → s.CtrlIsModeByte

theorem State.CtrlMatchesMode.ctrlFollowsMode {s : State} (h : s.CtrlMatchesMode) : s.CtrlFollowsMode :=
  ⟨h.1, fun _ => h.2⟩

theorem State.CtrlFollowsMode.ctrlMatchesMode {s : State} (h : s.CtrlFollowsMode) (hb : s.blocked = none) :
    s.CtrlMatchesMode :=
  ⟨h.1, h.2 fun _ => by simp [hb]⟩

/-- The relation looks at `CTRL`, `mode` and the writes to 0x24 alone. -/
theorem State.CtrlMatchesMode.congr {s t : State} (h : s.CtrlMatchesMode) (htxn : t.txn = s.txn)
    (hctrl : t.ctrl = s.ctrl) (hmode : t.mode = s.mode)
    (hlast : lastWriteTo 0x24 t.trace = lastWriteTo 0x24 s.trace) : t.CtrlMatchesMode := by
  simpa only [State.CtrlMatchesMode, State.CtrlIsModeByte, htxn, hctrl, hmode, hlast] using h

/-- The byte ENABLE writes is that of the mode it goes to (41_control_writer.md R91, R94). -/
theorem ctrlIsModeByte_of_enable {s : State} {on : Bool} {brightness : Int} (hctrl : s.ctrl = enableByte on brightness)
    (hmode : s.mode = enableMode on brightness) : s.CtrlIsModeByte := by
  rw [State.CtrlIsModeByte, hctrl, hmode]
  cases on with
  | false => rfl
  | true => rfl

/-! ### The shapes of a step -/

theorem State.CtrlMatchesMode.busWrite_dig {s : State} (h : s.CtrlMatchesMode) (i : Fin 4) (v : Byte) :
    (s.busWrite (.dig i) v).2.CtrlMatchesMode := by
  have hlast (ok : Bool) : lastWriteTo 0x24 (s.trace ++ [⟨(ChipReg.dig i).addr, v, ok⟩]) = lastWriteTo 0x24 s.trace :=
    lastWriteTo_append_of_ne (ChipReg.dig_addr_ne_ctrl i)
  rcases s.busWrite_cases (.dig i) v with e | e | e <;> rw [e]
  · exact h.congr (by simp) (by simp) (by simp) (by rw [State.wrote_trace, hlast])
  · exact h.congr (by simp) (by simp) (by simp) (by rw [State.failedWrite_trace, hlast])
  · exact h.congr (by simp) (by simp) (by simp) (by simp)

/-- A control write sets the relation up anew: completed, `mode` follows the byte; failed, it is the last write to 0x24 and did
not complete; hung, the transport is stuck at 0x24. -/
theorem State.runWrites_control_ctrlFollowsMode {s : State} {on : Bool} {brightness : Int} {undo : State → State}
    (htxn : s.txn = []) (hundo : ∀ t, ∃ hs', undo t = { t with hs := hs' }) :
    (s.runWrites [(.ctrl, enableByte on brightness)] (fun t => { t with mode := enableMode on brightness })
      undo).CtrlFollowsMode := by
  rcases s.runWrites_singleton_cases .ctrl (enableByte on brightness) _ undo with e | e | e <;> rw [e]
  · exact ⟨by simpa using htxn, fun _ _ _ _ => ctrlIsModeByte_of_enable (by simp) rfl⟩
  · obtain ⟨hs', e⟩ := hundo (s.failedWrite .ctrl (enableByte on brightness))
    rw [e]
    have hfailed : lastWriteTo 0x24 (s.failedWrite .ctrl (enableByte on brightness)).trace =
        some ⟨0x24, enableByte on brightness, false⟩ := by
      rw [State.failedWrite_trace]; exact lastWriteTo_append_of_eq rfl
    refine ⟨by simpa using htxn, fun _ entry hlast hok => ?_⟩
    obtain rfl := Option.some.inj (hfailed.symm.trans hlast)
    cases hok
  · exact ⟨by simpa using htxn, fun hfree => absurd rfl (hfree (enableByte on brightness))⟩

theorem CommandRun.keeps_ctrlFollowsMode {s t : State} (run : CommandRun s t) (h : s.CtrlMatchesMode) :
    t.CtrlFollowsMode := by
  cases run with
  | quiet hs returns => exact h.ctrlFollowsMode
  | control hs on brightness undo hundo => exact State.runWrites_control_ctrlFollowsMode h.1 hundo
  | digits ws hws =>
    refine State.CtrlMatchesMode.ctrlFollowsMode ?_
    refine State.runWrites_induction h (fun u r v hm hu => ?_) (fun _ hu => hu) fun _ hu => hu
    obtain ⟨⟨i, rfl⟩, -⟩ := hws _ hm
    exact hu.busWrite_dig i v

/-- Settles O50: a step starts with the transport free, and each of its three shapes keeps the relation or sets it up anew. -/
theorem stepKeepsCtrlFollowsMode : Obligations.StepKeepsCtrlFollowsMode := by
  intro s t h hstep
  obtain ⟨rest, run⟩ := step_commandRun h.1 hstep
  exact run.keeps_ctrlFollowsMode (h.ctrlMatchesMode (blocked_of_step hstep))

/-- Settles O51: no write has been made at reset. -/
theorem resetCtrlFollowsMode : Obligations.ResetCtrlFollowsMode :=
  ⟨rfl, fun _ _ hlast => by simp [State.reset, lastWriteTo] at hlast⟩

end Sys2Proof.Machine

/-! SUPPORT. What an instruction does, said once for all fourteen: `exec_eq` gives an admitted instruction as its writes and what
follows them, and `step_instrRun` reduces a step, with or without a transaction pending, to a refusal, such a run, or waiting. -/

namespace Sys2Proof.Machine

/-! ### The parts of an instruction's run -/

/-- The bus writes of an instruction that runs, by register (00_scope.md R9). -/
def plannedWrites : Instr → List Write
  | .init => [(.ctrl, onByte constructionBrightness)]
  | .enable on brightness => [(.ctrl, enableByte on brightness)]
  | .clear => clearWrites
  | .setDigit index c dot => setDigitWrites glyph index c dot
  | .print text => printWrites glyph text
  | .showNumber num => printWrites glyph (numberText num)
  | .close | .encode _ | .withDot _ => []
  | .wrCtrl data => [(.ctrl, data)]
  | .wrDig0 data => [(.dig 0, data)]
  | .wrDig1 data => [(.dig 1, data)]
  | .wrDig2 data => [(.dig 2, data)]
  | .wrDig3 data => [(.dig 3, data)]

/-- What an instruction does before its writes: INIT alone does anything (41_control_writer.md R90). -/
def State.enter (i : Instr) (s : State) : State :=
  match i with
  | .init => { s with hs := .opened }
  | _ => s

/-- What an instruction does once all its writes are complete. -/
def State.complete (i : Instr) (t : State) : State :=
  match i with
  | .init => { t with mode := .enabled constructionBrightness }.report .ok
  | .enable on brightness => { t with mode := enableMode on brightness }.report .ok
  | .clear | .setDigit _ _ _ | .print _ | .showNumber _ => t.report .ok
  | .close => { t with hs := .closed }.report .ok
  | .encode c => t.reportResult (glyph c)
  | .withDot pattern => t.reportResult (setDot pattern)
  | .wrCtrl _ | .wrDig0 _ | .wrDig1 _ | .wrDig2 _ | .wrDig3 _ => t

/-- What an instruction that began at handle state `hs` does once a write has failed (60_exceptions.md R152). -/
def State.abandon (i : Instr) (hs : HandleState) (t : State) : State :=
  match i with
  | .init => { t with hs := hs }.takeBusFault
  | _ => t.takeBusFault

/-- What follows an instruction's writes; nothing, where one never returned (20_memory.md R42). -/
def State.finish (i : Instr) (hs : HandleState) : WriteEnd → State → State
  | .completed, t => t.complete i
  | .failed, t => t.abandon i hs
  | .blocked, t => t

/-- The run of an instruction that is not refused. -/
def State.runInstr (i : Instr) (s : State) : State :=
  let ended := (s.enter i).busWrites (plannedWrites i)
  ended.2.finish i s.hs ended.1

/-! ### `exec` is that run, or a refusal -/

theorem State.runWrites_eq_finish {i : Instr} {hs : HandleState} {after undo : State → State} (ws : List Write) (s : State)
    (hafter : ∀ t, (after t).report .ok = t.complete i) (hundo : ∀ t, (undo t).takeBusFault = t.abandon i hs) :
    s.runWrites ws after undo = (s.busWrites ws).2.finish i hs (s.busWrites ws).1 := by
  rcases hend : s.busWrites ws with ⟨_ | _ | _, t⟩
  · simp [State.runWrites, hend, State.finish, hafter]
  · simp [State.runWrites, hend, State.finish, hundo]
  · simp [State.runWrites, hend, State.finish]

theorem State.transact_eq_finish {i : Instr} {hs : HandleState} (r : ChipReg) (v : Byte) (s : State)
    (hafter : ∀ t : State, t = t.complete i) (hundo : ∀ t : State, t.takeBusFault = t.abandon i hs) :
    s.transact r v = (s.busWrites [(r, v)]).2.finish i hs (s.busWrites [(r, v)]).1 := by
  rcases s.busWrite_cases r v with e | e | e
  · simp [State.transact, State.busWrites, e, State.finish, ← hafter]
  · simp [State.transact, State.busWrites, e, State.finish, hundo]
  · simp [State.transact, State.busWrites, e, State.finish]

/-- A command that needs an OPEN handle runs where the handle is OPEN, and is refused elsewhere (60_exceptions.md R154). -/
theorem State.whenOpen_eq_ite {i : Instr} {s : State} {run : State → State} (hadmits : admits s.hs i = (s.hs == .opened))
    (hrun : run s = s.runInstr i) : s.whenOpen run = if admits s.hs i then s.runInstr i else s.refuse := by
  rw [hadmits]
  by_cases ho : s.hs = .opened
  · simp [State.whenOpen_opened ho, ho, hrun]
  · simp [State.whenOpen_refused ho, ho]

theorem exec_eq (i : Instr) (s : State) :
    exec i s = .next (if admits s.hs i then s.runInstr i else s.refuse) := by
  cases i with
  | init =>
    have hrun : _ = s.runInstr .init := State.runWrites_eq_finish (plannedWrites .init) (s.enter .init)
      (after := fun t => { t with mode := .enabled constructionBrightness }) (undo := fun t => { t with hs := s.hs })
      (fun _ => rfl) fun _ => rfl
    by_cases ho : s.hs = .opened
    · simp [exec, execInit, admits, ho]
    · simp only [exec, execInit, admits, ho, if_false, bne_iff_ne, ne_eq, not_false_eq_true, if_true]
      exact congrArg _ hrun
  | enable | clear | setDigit | print | showNumber =>
    exact congrArg _ (State.whenOpen_eq_ite rfl (State.runWrites_eq_finish _ s (fun _ => rfl) fun _ => rfl))
  | close => exact congrArg _ (State.whenOpen_eq_ite (i := .close) rfl rfl)
  | encode | withDot => rfl
  | wrCtrl | wrDig0 | wrDig1 | wrDig2 | wrDig3 =>
    exact congrArg _ (State.transact_eq_finish _ _ s (fun _ => rfl) fun _ => rfl)

theorem exec_of_admits {i : Instr} {s : State} (h : admits s.hs i = true) : exec i s = .next (s.runInstr i) := by
  simp [exec_eq, h]

/-! ### What a step can do -/

/-- What one step does once its bytes are consumed: it waits, it refuses, or it runs an instruction. -/
inductive InstrRun (s : State) : State → Prop
  | waits : InstrRun s s
  | refused : InstrRun s s.refuse
  | runs (i : Instr) : InstrRun s (s.runInstr i)

theorem exec_instrRun {i : Instr} {s t : State} (h : exec i s = .next t) : InstrRun s t := by
  rw [exec_eq] at h
  split at h
  · cases h; exact .runs i
  · cases h; exact .refused

theorem step_instrRun_of_command {s t : State} (htxn : s.txn = []) (h : step s = .next t) :
    ∃ rest, InstrRun { s with input := rest } t := by
  have hfetch : s.fetch = s.fetchCommand := by simp [State.fetch, blocked_of_step h, htxn]
  rw [step, hfetch, State.fetchCommand] at h
  cases hd : decodeCommand s.input <;> rw [hd] at h
  case idle => cases h; exact ⟨s.input, .waits⟩
  case incomplete op => cases h; exact ⟨s.input, .waits⟩
  case reserved op rest => cases h; exact ⟨rest, .refused⟩
  case malformed op rest => cases h; exact ⟨rest, .refused⟩
  case instr i rest => exact ⟨rest, exec_instrRun h⟩

theorem step_instrRun_of_transaction {s t : State} (htxn : s.txn ≠ []) (h : step s = .next t) :
    ∃ rest, InstrRun { s with txn := rest } t := by
  have hfetch : s.fetch = s.fetchTransaction := by simp [State.fetch, blocked_of_step h, htxn]
  rw [step, hfetch, State.fetchTransaction] at h
  cases hd : decodeTransaction s.txn <;> rw [hd] at h
  case incomplete => cases h; exact ⟨s.txn, .waits⟩
  case unmapped addr => cases h
  case instr i rest => exact ⟨rest, exec_instrRun h⟩

/-- A step consumes bytes of one side and then waits, refuses or runs an instruction (30_encoding.md R50, R56, R60). -/
theorem step_instrRun {s t : State} (h : step s = .next t) :
    ∃ input txn, InstrRun { s with input := input, txn := txn } t := by
  by_cases htxn : s.txn = []
  · obtain ⟨rest, run⟩ := step_instrRun_of_command htxn h
    exact ⟨rest, s.txn, run⟩
  · obtain ⟨rest, run⟩ := step_instrRun_of_transaction htxn h
    exact ⟨s.input, rest, run⟩

/-! ### What every run keeps -/

/-- A property that one bus write keeps, where the transport is as free as it was at the start, is kept by a list of writes. -/
theorem State.busWrites_keeps {P : State → Prop} {ws : List Write} {s : State} (base : P s)
    (write : ∀ u r v, (r, v) ∈ ws → u.blocked = s.blocked → P u → P (u.busWrite r v).2) : P (s.busWrites ws).2 := by
  induction ws generalizing s with
  | nil => exact base
  | cons w ws ih =>
    obtain ⟨r, v⟩ := w
    have hfirst := write s r v List.mem_cons_self rfl base
    rcases s.busWrite_cases r v with e | e | e <;> simp only [State.busWrites, e] at hfirst ⊢
    · have hfree : (s.wrote r v).blocked = s.blocked := by simp [State.wrote]
      exact ih hfirst fun u r v hmem hu => write u r v (List.mem_cons_of_mem _ hmem) (hu.trans hfree)
    · exact hfirst
    · exact hfirst

/-- What waiting, refusing or running an instruction keeps: a property kept by one bus write, by a change of the handle state and
the mode, and by one more return. -/
theorem State.runInstr_keeps {P : State → Prop} {i : Instr} {s : State} (base : P s)
    (write : ∀ u r v, (r, v) ∈ plannedWrites i → u.blocked = s.blocked → P u → P (u.busWrite r v).2)
    (handle : ∀ u hs mode, P u → P { u with hs := hs, mode := mode })
    (returned : ∀ u r, P u → P { u with returns := u.returns ++ [r] }) : P (s.runInstr i) := by
  have henter : P (s.enter i) ∧ (s.enter i).blocked = s.blocked := by
    cases i
    case init => exact ⟨handle s .opened s.mode base, rfl⟩
    all_goals exact ⟨base, rfl⟩
  have hwrites : P ((s.enter i).busWrites (plannedWrites i)).2 :=
    State.busWrites_keeps henter.1 fun u r v hmem hu => write u r v hmem (hu.trans henter.2)
  unfold State.runInstr
  generalize (s.enter i).busWrites (plannedWrites i) = ended at hwrites
  obtain ⟨e, u⟩ := ended
  cases e with
  | completed =>
    cases i
    case init => exact returned _ _ (handle u u.hs _ hwrites)
    case enable => exact returned _ _ (handle u u.hs _ hwrites)
    case close => exact returned _ _ (handle u _ u.mode hwrites)
    case wrCtrl | wrDig0 | wrDig1 | wrDig2 | wrDig3 => exact hwrites
    all_goals exact returned _ _ hwrites
  | failed =>
    cases i
    case init => exact returned _ _ (handle u _ u.mode hwrites)
    all_goals exact returned _ _ hwrites
  | blocked => exact hwrites

/-- What every step keeps: a property kept by consuming bytes, by one bus write of a free transport, by a change of the handle
state and the mode, and by one more return. -/
theorem step_keeps {P : State → Prop} {s t : State} (hstep : step s = .next t)
    (base : ∀ input txn, P { s with input := input, txn := txn })
    (write : ∀ u r v, u.blocked = none → P u → P (u.busWrite r v).2)
    (handle : ∀ u hs mode, P u → P { u with hs := hs, mode := mode })
    (returned : ∀ u r, P u → P { u with returns := u.returns ++ [r] }) : P t := by
  have hfree := blocked_of_step hstep
  obtain ⟨input, txn, run⟩ := step_instrRun hstep
  cases run with
  | waits => exact base input txn
  | refused => exact returned _ _ (base input txn)
  | runs i =>
    exact State.runInstr_keeps (base input txn) (fun u r v _ hu => write u r v (hu.trans hfree)) handle returned

end Sys2Proof.Machine

/-! SUPPORT. What every step keeps of the bus trace: it only grows, it counts the writes issued, and the chip's registers follow
it (20_memory.md R31, R38, R44). -/

namespace Sys2Proof.Machine

/-! ### The trace and the returns only grow -/

theorem State.trace_prefix_busWrite (s : State) (r : ChipReg) (v : Byte) : s.trace <+: (s.busWrite r v).2.trace := by
  rcases s.busWrite_cases r v with e | e | e <;> simp [e]

@[simp] theorem State.busWrite_returns (s : State) (r : ChipReg) (v : Byte) : (s.busWrite r v).2.returns = s.returns := by
  rcases s.busWrite_cases r v with e | e | e <;> simp [e, State.wrote, State.failedWrite, State.hungWrite]

/-- Settles O44: every part of a step keeps the trace and the returns it found, and adds behind them. -/
theorem stepOnlyExtendsTrace : Obligations.StepOnlyExtendsTrace := by
  intro s t hstep
  have hgrows : s.trace <+: t.trace ∧ s.returns <+: t.returns := by
    refine step_keeps (P := fun u => s.trace <+: u.trace ∧ s.returns <+: u.returns) hstep
      (fun _ _ => ⟨List.prefix_rfl, List.prefix_rfl⟩) (fun u r v _ hu => ?_) (fun _ _ _ hu => hu) fun u r hu => ?_
    · exact ⟨hu.1.trans (u.trace_prefix_busWrite r v), by simpa using hu.2⟩
    · exact ⟨hu.1, hu.2.trans (List.prefix_append _ _)⟩
  obtain ⟨⟨added, htrace⟩, returned, hreturns⟩ := hgrows
  exact ⟨⟨added, htrace.symm⟩, returned, hreturns.symm⟩

/-! ### The count of the writes issued -/

theorem State.WritesCounted.busWrite {s : State} (h : s.WritesCounted) (hfree : s.blocked = none) (r : ChipReg) (v : Byte) :
    (s.busWrite r v).2.WritesCounted := by
  have hcount : s.writes = s.trace.length := by simpa [State.WritesCounted, hfree] using h
  rcases s.busWrite_cases r v with e | e | e <;>
    simp [e, State.WritesCounted, State.wrote, State.failedWrite, State.hungWrite, hfree, hcount]

/-- Settles O52: each bus write is counted once and is on the trace or, the last one, stuck. -/
theorem stepKeepsWritesCounted : Obligations.StepKeepsWritesCounted := fun _ _ h hstep =>
  step_keeps hstep (fun _ _ => h) (fun _ r v hfree hu => hu.busWrite hfree r v) (fun _ _ _ hu => hu) fun _ _ hu => hu

/-- Settles O53: a run begins with no write issued and nothing stuck. -/
theorem resetWritesCounted : Obligations.ResetWritesCounted := ⟨rfl, rfl, rfl, rfl⟩

/-! ### The registers follow the trace -/

/-- What `State.RegistersFollowTrace` says of one register. -/
def State.Follows (base : ChipReg → Byte) (q : ChipReg) (s : State) : Prop :=
  (lastWriteTo q.addr s.trace = none → s.reg q = base q) ∧
    ∀ entry, lastWriteTo q.addr s.trace = some entry → entry.ok = true → s.reg q = entry.value

theorem State.registersFollowTrace_iff (base : ChipReg → Byte) (s : State) :
    s.RegistersFollowTrace base ↔ ∀ q, s.NotBlockedAt q.addr → s.Follows base q := by
  refine forall_congr' fun q => imp_congr_right fun _ => ?_
  unfold State.Follows
  cases lastWriteTo q.addr s.trace <;> simp

/-- A register follows the trace still where neither it nor the last write to it is another. -/
theorem State.Follows.congr {base : ChipReg → Byte} {q : ChipReg} {s t : State} (h : s.Follows base q)
    (hreg : t.reg q = s.reg q) (hlast : lastWriteTo q.addr t.trace = lastWriteTo q.addr s.trace) : t.Follows base q := by
  simpa only [State.Follows, hreg, hlast] using h

/-- A register whose last write is `entry` follows the trace if it holds that byte, or if the write failed. -/
theorem State.follows_of_lastWriteTo {base : ChipReg → Byte} {q : ChipReg} {s : State} {entry : BusEntry}
    (hlast : lastWriteTo q.addr s.trace = some entry) (hreg : entry.ok = true → s.reg q = entry.value) :
    s.Follows base q := by
  refine ⟨fun hnone => by simp [hlast] at hnone, fun entry' hlast' => ?_⟩
  obtain rfl := Option.some.inj (hlast.symm.trans hlast')
  exact hreg

theorem State.reg_busWrite_ne {q r : ChipReg} (h : q ≠ r) (v : Byte) (s : State) :
    (s.busWrite r v).2.reg q = s.reg q := by
  rcases s.busWrite_cases r v with e | e | e <;>
    simp [e, State.wrote, State.failedWrite, State.hungWrite, State.reg_setReg, h]

theorem State.lastWriteTo_busWrite_ne {q r : ChipReg} (h : q ≠ r) (v : Byte) (s : State) :
    lastWriteTo q.addr (s.busWrite r v).2.trace = lastWriteTo q.addr s.trace := by
  have haddr : r.addr ≠ q.addr := fun e => h (ChipReg.addr_injective e).symm
  rcases s.busWrite_cases r v with e | e | e <;> simp [e, lastWriteTo_append_of_ne, haddr]

/-- The register written follows the trace after the write: completed, it holds the byte; failed, nothing is claimed of it; hung,
the transport is stuck there. -/
theorem State.follows_busWrite_same (base : ChipReg → Byte) (r : ChipReg) (v : Byte) (s : State)
    (hfree : (s.busWrite r v).2.NotBlockedAt r.addr) : (s.busWrite r v).2.Follows base r := by
  rcases s.busWrite_cases r v with e | e | e <;> rw [e] at hfree ⊢
  · exact State.follows_of_lastWriteTo (by rw [State.wrote_trace]; exact lastWriteTo_append_of_eq rfl)
      fun _ => by simp [State.wrote, State.reg_setReg]
  · exact State.follows_of_lastWriteTo (by rw [State.failedWrite_trace]; exact lastWriteTo_append_of_eq rfl)
      fun hok => absurd hok Bool.false_ne_true
  · exact absurd (State.hungWrite_blocked s r v) (hfree v)

theorem State.RegistersFollowTrace.busWrite {base : ChipReg → Byte} {s : State} (h : s.RegistersFollowTrace base)
    (hfree : s.blocked = none) (r : ChipReg) (v : Byte) : (s.busWrite r v).2.RegistersFollowTrace base := by
  rw [State.registersFollowTrace_iff] at h ⊢
  intro q hq
  by_cases hqr : q = r
  · subst hqr; exact State.follows_busWrite_same base q v s hq
  · exact (h q fun _ => by simp [hfree]).congr (State.reg_busWrite_ne hqr v s) (State.lastWriteTo_busWrite_ne hqr v s)

/-- Settles O46: each bus write of a step keeps the relation, and nothing else touches the registers or the trace. -/
theorem stepKeepsRegistersFollowTrace : Obligations.StepKeepsRegistersFollowTrace := fun _ _ _ h hstep =>
  step_keeps hstep (fun _ _ => h) (fun _ r v hfree hu => hu.busWrite hfree r v) (fun _ _ _ hu => hu) fun _ _ hu => hu

/-- Settles O47: the trace is empty at reset, and each register holds its power-on value. -/
theorem resetRegistersFollowTrace : Obligations.ResetRegistersFollowTrace := by
  refine (State.registersFollowTrace_iff _ _).mpr fun q _ => ⟨fun _ => ?_, fun entry hlast => ?_⟩
  · cases q with
    | ctrl => rfl
    | dig i => simp [State.reg, State.reset]
  · simp [State.reset, lastWriteTo] at hlast

end Sys2Proof.Machine

/-! SUPPORT. The writes the instructions make (`plannedWrites`) are the entries the statements plan (`plannedEntries`), by the clamp
(41_control_writer.md R92), the scan as a fold (43_text_formatter.md R125, R126) and DEC (R128). -/

namespace Sys2Proof.Machine

/-! ### The control byte and the digit address -/

theorem ofNat_clampBrightness (b : Int) :
    BitVec.ofNat 8 (clampBrightness b).val = BitVec.ofInt 8 (max 0 (min 7 b)) := by
  unfold clampBrightness
  split_ifs with hlow hhigh
  · rw [min_eq_right (by omega), max_eq_left hlow.le]; rfl
  · rw [min_eq_left hhigh.le]; rfl
  · obtain ⟨n, rfl⟩ := Int.eq_ofNat_of_zero_le (not_lt.mp hlow)
    have hn : n % 8 = n := Nat.mod_eq_of_lt (by omega)
    rw [min_eq_right (not_lt.mp hhigh), max_eq_right (not_lt.mp hlow)]
    simp [Fin.ofNat, hn]

theorem enableByte_eq (on : Bool) (b : Int) :
    enableByte on b = if on then BitVec.ofInt 8 (max 0 (min 7 b)) ||| 0x01 else 0x00 := by
  rw [enableByte, onByte, ofNat_clampBrightness, offByte]

theorem digitByte_eq (g : Byte → Byte) (c : Byte) (dot : Bool) :
    digitByte g c dot = if dot then g c ||| 0x80 else g c := rfl

theorem digSel_of_lt {n : Nat} (h : n < 4) : digSel n = some (.dig ⟨n, h⟩) := by
  have hfin : Fin.ofNat 4 n = ⟨n, h⟩ := Fin.ext (Nat.mod_eq_of_lt h)
  rw [digSel, if_pos (by omega), Int.toNat_natCast, hfin]

theorem digSel_of_not_mem {index : Int} (h : ¬ (0 ≤ index ∧ index ≤ 3)) : digSel index = none := if_neg h

theorem setDigitWrites_of_lt {n : Nat} (h : n < 4) (g : Byte → Byte) (c : Byte) (dot : Bool) :
    setDigitWrites g n c dot = [(.dig ⟨n, h⟩, digitByte g c dot)] := by
  simp [setDigitWrites, digSel_of_lt h]

theorem setDigitWrites_of_not_mem {index : Int} (h : ¬ (0 ≤ index ∧ index ≤ 3)) (g : Byte → Byte) (c : Byte) (dot : Bool) :
    setDigitWrites g index c dot = [] := by
  simp [setDigitWrites, digSel_of_not_mem h]

/-! ### PRINT's positions -/

/-- The two-cursor scan is the fold of the text from the cursor on, cut at the positions left (43_text_formatter.md R126). -/
theorem scan_eq_take_foldPeriods (text : List Byte) (left src : Nat) :
    scan text left src = (foldPeriods (text.drop src)).take left := by
  induction left generalizing src with
  | zero => rfl
  | succ left ih =>
    have hc : text[src]? = (text.drop src)[0]? := by simp
    have hd : text[src + 1]? = (text.drop src)[1]? := by simp
    have hone : text.drop (src + 1) = (text.drop src).drop 1 := by simp
    have htwo : text.drop (src + 2) = (text.drop src).drop 2 := by simp
    rw [scan, hc, hd, ih, ih, hone, htwo]
    match text.drop src with
    | [] => simp [foldPeriods]
    | [c] => simp [foldPeriods]
    | c :: d :: rest => by_cases hperiod : d = period <;> simp [foldPeriods, hperiod]

theorem shownByte_cons_succ (p : Byte × Bool) (shown : List (Byte × Bool)) (k : Nat) :
    shownByte (p :: shown) (k + 1) = shownByte shown k := by
  simp [shownByte]

/-- The writes of positions `pos` on are the shown bytes at their addresses. -/
theorem placeFrom_entries {shown : List (Byte × Bool)} {pos : Nat} (h : pos + shown.length ≤ 4) :
    (placeFrom glyph pos shown).map (entryOf true) =
      (List.range shown.length).map fun k => ⟨0x34 + BitVec.ofNat 8 (pos + k), shownByte shown k, true⟩ := by
  induction shown generalizing pos with
  | nil => rfl
  | cons p more ih =>
    obtain ⟨c, dot⟩ := p
    have hmore : pos + 1 + more.length ≤ 4 := by rw [List.length_cons] at h; omega
    have hpos : pos < 4 := by omega
    rw [placeFrom, setDigitWrites_of_lt hpos, List.map_append, ih hmore, List.length_cons, List.range_succ_eq_map]
    simp [entryOf, ChipReg.addr, digitByte_eq, shownByte, Nat.add_right_comm, Nat.add_assoc]

theorem printWrites_entries (text : List Byte) :
    (printWrites glyph text).map (entryOf true) = shownEntries ((foldPeriods text).take 4) := by
  have hlength : 0 + ((foldPeriods text).take 4).length ≤ 4 := by simp
  rw [printWrites, scan_eq_take_foldPeriods, List.drop_zero, List.map_append, placeFrom_entries hlength]
  simp only [Nat.zero_add]
  rfl

/-! ### SHOWNUMBER's text -/

theorem foldPeriods_of_no_period {text : List Byte} (h : period ∉ text) : foldPeriods text = text.map fun c => (c, false) := by
  induction text using foldPeriods.induct with
  | case1 => rfl
  | case2 c => rfl
  | case3 c rest ih => simp at h
  | case4 c d rest hd ih =>
    have hrest : period ∉ d :: rest := fun hmem => h (List.mem_cons_of_mem c hmem)
    simp [foldPeriods, hd, ih hrest]

theorem digitChar_ne_period (d : Fin 10) : digitChar d ≠ period := by
  revert d; decide

theorem period_not_mem_decDigits (fuel n : Nat) : period ∉ decDigits fuel n := by
  have hlast (m : Nat) : period ≠ digitChar (m % 10) :=
    (digitChar_ne_period ⟨m % 10, Nat.mod_lt m (by decide)⟩).symm
  induction fuel generalizing n with
  | zero => simpa [decDigits] using hlast n
  | succ fuel ih =>
    rw [decDigits]
    split_ifs with hn
    · simpa [Nat.mod_eq_of_lt hn] using hlast n
    · simpa using ⟨ih (n / 10), hlast n⟩

theorem period_not_mem_dec (n : Int) : period ∉ dec n := by
  have hdigits : period ∉ decNat n.natAbs := period_not_mem_decDigits _ _
  unfold dec
  split_ifs
  · exact List.not_mem_cons_of_ne_of_not_mem (by decide) hdigits
  · exact hdigits

theorem decDigits_ne_nil (fuel n : Nat) : decDigits fuel n ≠ [] := by
  cases fuel with
  | zero => simp [decDigits]
  | succ fuel => rw [decDigits]; split_ifs <;> simp

theorem dec_ne_nil (n : Int) : dec n ≠ [] := by
  unfold dec
  split_ifs
  · exact List.cons_ne_nil _ _
  · exact decDigits_ne_nil _ _

theorem foldPeriods_numberText (num : Int) :
    (foldPeriods (numberText num)).take 4 = (numberText num).map fun c => (c, false) := by
  have hno : period ∉ numberText num := fun hmem => period_not_mem_dec num (List.mem_of_mem_drop hmem)
  rw [foldPeriods_of_no_period hno, List.take_of_length_le]
  simp [numberText, lastFour]; omega

/-! ### The planned entries -/

/-- The trace entries of an instruction's writes, all completed, are those the statements plan. -/
theorem plannedEntries_eq (i : Instr) : plannedEntries i = (plannedWrites i).map (entryOf true) := by
  cases i with
  | enable on b => simp [plannedEntries, plannedWrites, entryOf, ChipReg.addr, enableByte_eq]
  | setDigit index c dot =>
    by_cases hindex : 0 ≤ index ∧ index ≤ 3
    · obtain ⟨n, rfl⟩ := Int.eq_ofNat_of_zero_le hindex.1
      have hn : n < 4 := by omega
      have haddr : BitVec.ofInt 8 (0x34 + (n : Int)) = 0x34 + BitVec.ofNat 8 n := by rw [BitVec.ofInt_add]; simp
      rw [plannedEntries, if_pos hindex, plannedWrites, setDigitWrites_of_lt hn, haddr]
      rfl
    · rw [plannedEntries, if_neg hindex, plannedWrites, setDigitWrites_of_not_mem hindex]
      rfl
  | print text => exact (printWrites_entries text).symm
  | showNumber num => rw [plannedWrites, printWrites_entries, foldPeriods_numberText]; rfl
  | init | clear | close | encode | withDot | wrCtrl | wrDig0 | wrDig1 | wrDig2 | wrDig3 => rfl

@[simp] theorem shownEntries_length (shown : List (Byte × Bool)) : (shownEntries shown).length = 4 + shown.length := by
  simp [shownEntries]; omega

end Sys2Proof.Machine

/-! SUPPORT. An admitted instruction run to the end of its writes, or hung at one of them (20_memory.md R38, R42). -/

namespace Sys2Proof.Machine

/-! ### The run of an instruction, by the environment's answers -/

@[simp] theorem State.enter_trace (i : Instr) (s : State) : (s.enter i).trace = s.trace := by cases i <;> rfl
@[simp] theorem State.enter_returns (i : Instr) (s : State) : (s.enter i).returns = s.returns := by cases i <;> rfl
@[simp] theorem State.enter_mode (i : Instr) (s : State) : (s.enter i).mode = s.mode := by cases i <;> rfl
@[simp] theorem State.enter_input (i : Instr) (s : State) : (s.enter i).input = s.input := by cases i <;> rfl
@[simp] theorem State.enter_txn (i : Instr) (s : State) : (s.enter i).txn = s.txn := by cases i <;> rfl
@[simp] theorem State.enter_blocked (i : Instr) (s : State) : (s.enter i).blocked = s.blocked := by cases i <;> rfl
@[simp] theorem State.enter_peek (i : Instr) (s : State) (a : Byte) : (s.enter i).peek a = s.peek a := by
  cases i <;> rfl

theorem State.enter_hs (i : Instr) (s : State) : (s.enter i).hs = if i = .init then .opened else s.hs := by
  cases i <;> rfl

theorem State.enter_answersTo (i : Instr) (s : State) (entries : List BusEntry) :
    (s.enter i).answersTo entries = s.answersTo entries :=
  State.answersTo_congr (by cases i <;> rfl) (by cases i <;> rfl) entries

@[simp] theorem State.complete_trace (i : Instr) (t : State) : (t.complete i).trace = t.trace := by cases i <;> rfl
@[simp] theorem State.complete_blocked (i : Instr) (t : State) : (t.complete i).blocked = t.blocked := by cases i <;> rfl

theorem State.runInstr_completes {i : Instr} {s : State} (h : s.Completes (plannedEntries i)) :
    s.runInstr i = ((s.enter i).afterWrites (plannedWrites i)).complete i := by
  rw [plannedEntries_eq, State.Completes, ← State.enter_answersTo i] at h
  simp [State.runInstr, State.busWrites_completes h, State.finish]

theorem State.runInstr_hangsAt {i : Instr} {k : Nat} {s : State} {r : ChipReg} {v : Byte}
    (h : s.HangsAt k (plannedEntries i)) (hk : (plannedWrites i)[k]? = some (r, v)) :
    s.runInstr i = ((s.enter i).afterWrites ((plannedWrites i).take k)).hungWrite r v := by
  rw [plannedEntries_eq, State.HangsAt, ← State.enter_answersTo i] at h
  simp [State.runInstr, State.busWrites_hangsAt h hk, State.finish]

/-! ### Writes that all complete -/

theorem plannedEntries_print_length (text : List Byte) :
    4 ≤ (plannedEntries (.print text)).length ∧ (plannedEntries (.print text)).length ≤ 8 := by
  simp [plannedEntries]; omega

theorem plannedEntries_showNumber_length (num : Int) :
    5 ≤ (plannedEntries (.showNumber num)).length ∧ (plannedEntries (.showNumber num)).length ≤ 8 := by
  have hpos : 0 < (dec num).length := List.length_pos_iff.mpr (dec_ne_nil num)
  simp [plannedEntries]; omega

/-- Settles O37: the writes issued are the planned ones, and neither entering nor completing an instruction touches the trace. -/
theorem completedWritesInOrder : Obligations.CompletedWritesInOrder := by
  refine ⟨fun i s hadmits hcompletes => ?_, plannedEntries_print_length, plannedEntries_showNumber_length⟩
  exact ⟨_, exec_of_admits hadmits, by simp [State.runInstr_completes hcompletes, plannedEntries_eq],
    by simp [State.runInstr_completes hcompletes]⟩

/-! ### A write that never returns -/

theorem step_of_blocked {t : State} {addr value : Byte} (h : t.blocked = some (addr, value)) :
    step t = .fault (.transportNeverReturned addr value) := by
  simp [step, State.fetch, h]

theorem State.peek_wrote_ne {s : State} {r : ChipReg} {a : Byte} (h : a ≠ r.addr) (v : Byte) :
    (s.wrote r v).peek a = s.peek a :=
  State.peek_setReg_ne s.issueWrite r v h

theorem State.peek_wrote_same (s : State) (r : ChipReg) (v : Byte) : (s.wrote r v).peek r.addr = some v := by
  simp [State.peek, State.wrote, State.reg_setReg]

theorem State.peek_hungWrite_ne {s : State} {r : ChipReg} {a : Byte} (h : a ≠ r.addr) (v : Byte) :
    (s.hungWrite r v).peek a = s.peek a :=
  State.peek_setReg_ne s.issueWrite r _ h

/-- An address reads as the last completed write to it, or as before. -/
theorem State.peek_afterWrites (ws : List Write) (s : State) (a : Byte) :
    (s.afterWrites ws).peek a = ((lastWriteTo a (ws.map (entryOf true))).map BusEntry.value).or (s.peek a) := by
  induction ws using List.reverseRecOn with
  | nil => rfl
  | append_singleton ws w ih =>
    obtain ⟨r, v⟩ := w
    rw [State.afterWrites_append, List.map_append, List.map_singleton]
    by_cases ha : r.addr = a
    · subst ha
      rw [lastWriteTo_append_of_eq (a := r.addr) (entry := entryOf true (r, v)) rfl]
      exact State.peek_wrote_same _ r v
    · rw [lastWriteTo_append_of_ne (entry := entryOf true (r, v)) ha, ← ih]
      exact State.peek_wrote_ne (Ne.symm ha) v

/-- Settles O39: the writes before write `k` are complete, and the run stops inside it. -/
theorem neverReturningWriteHangs : Obligations.NeverReturningWriteHangs := by
  intro i k s stuck hadmits hhangs hstuck
  have hentry := hstuck
  rw [plannedEntries_eq, List.getElem?_map, Option.map_eq_some_iff] at hentry
  obtain ⟨⟨r, v⟩, hk, rfl⟩ := hentry
  have hrun := State.runInstr_hangsAt hhangs hk
  have hblocked : (s.runInstr i).blocked = some (r.addr, v) := by simp [hrun]
  refine ⟨_, exec_of_admits hadmits, hblocked, ?_, ?_, ?_, ?_, ?_, ?_, step_of_blocked hblocked, fun a ha => ?_⟩
  · simp [hrun, plannedEntries_eq, List.map_take]
  · simp [hrun, State.hungWrite]
  · simp [hrun]
  · simp [hrun, State.hungWrite, State.enter_hs]
  · simp [hrun, State.hungWrite]
  · simp [hrun]
  · rw [hrun, State.peek_hungWrite_ne ha, State.peek_afterWrites, State.enter_peek, List.map_take, ← plannedEntries_eq]
    cases lastWriteTo a ((plannedEntries i).take k) <;> rfl

end Sys2Proof.Machine

/-! SUPPORT. The bus transactions by themselves, and the frame of the control register's writers (20_memory.md R30, R31, R37). -/

namespace Sys2Proof.Machine

/-! ### One transaction -/

theorem State.transact_completes {s : State} {r : ChipReg} {v : Byte} (h : s.Completes [⟨r.addr, v, true⟩]) :
    s.transact r v = { s.setReg r v with
      trace := s.trace ++ [⟨r.addr, v, true⟩], answers := s.answers.drop 1, writes := s.writes + 1 } := by
  have hanswer : s.busAnswer r.addr v = .completes := by simpa [State.Completes, State.answersTo] using h
  rw [State.transact, State.busWrite_completes hanswer]
  cases r <;> simp [State.wrote, State.record, State.setReg, State.issueWrite]

theorem State.transact_failsAt {s : State} {r : ChipReg} {v : Byte} (h : s.FailsAt 0 [⟨r.addr, v, true⟩]) :
    s.transact r v = { s.setReg r (Config.failedWriteByte s.writes r.addr v (s.reg r)) with
      trace := s.trace ++ [⟨r.addr, v, false⟩], returns := s.returns ++ [⟨.busFault, none⟩],
      answers := s.answers.drop 1, writes := s.writes + 1 } := by
  have hanswer : s.busAnswer r.addr v = .fails := by simpa [State.FailsAt, State.answersTo] using h
  rw [State.transact, State.busWrite_fails hanswer]
  cases r <;> simp [State.failedWrite, State.failedByte, State.record, State.setReg, State.issueWrite, State.takeBusFault,
    State.report]

/-- Settles O32: a transaction that completes is one write that completed. -/
theorem transactionWritesRegister : Obligations.TransactionWritesRegister := by
  refine fun v s => ⟨fun h => ?_, fun h => ?_, fun h => ?_, fun h => ?_, fun h => ?_⟩
  · exact congrArg _ (State.transact_completes (r := .ctrl) h)
  · exact congrArg _ (State.transact_completes (r := .dig 0) h)
  · exact congrArg _ (State.transact_completes (r := .dig 1) h)
  · exact congrArg _ (State.transact_completes (r := .dig 2) h)
  · exact congrArg _ (State.transact_completes (r := .dig 3) h)

/-- Settles O33: a transaction that fails is one write that failed, and the bus fault. -/
theorem transactionFault : Obligations.TransactionFault := by
  refine fun v s => ⟨fun h => congrArg _ (State.transact_failsAt (r := .ctrl) h), fun i k hmem h => ?_⟩
  simp only [List.mem_cons, Prod.mk.injEq, List.not_mem_nil, or_false] at hmem
  rcases hmem with ⟨rfl, rfl⟩ | ⟨rfl, rfl⟩ | ⟨rfl, rfl⟩ | ⟨rfl, rfl⟩
  · exact congrArg _ (State.transact_failsAt (r := .dig 0) h)
  · exact congrArg _ (State.transact_failsAt (r := .dig 1) h)
  · exact congrArg _ (State.transact_failsAt (r := .dig 2) h)
  · exact congrArg _ (State.transact_failsAt (r := .dig 3) h)

theorem transactionOf_eq_none {addr : Byte} (h : addr ∉ ([0x24, 0x34, 0x35, 0x36, 0x37] : List Byte)) (data : Byte) :
    transactionOf addr data = none := by
  simp only [List.mem_cons, List.not_mem_nil, or_false, not_or] at h
  simp only [transactionOf, h, if_false]

/-- Settles O34: the address decodes to no transaction. -/
theorem unmappedAddressFaults : Obligations.UnmappedAddressFaults := by
  intro s a v rest hfree htxn ha
  have hdecode : decodeTransaction s.txn = .unmapped a := by simp [htxn, decodeTransaction, transactionOf_eq_none ha]
  have hfetch : s.fetch = s.fetchTransaction := by simp [State.fetch, hfree, htxn]
  rw [step, hfetch, State.fetchTransaction, hdecode]

/-! ### The frame of INIT, ENABLE and WR_CTRL -/

/-- What a write to the control register leaves as it was at `s`. -/
def State.KeepsButCtrl (s t : State) : Prop :=
  t.dig = s.dig ∧ (∀ a, a ≠ 0x24 → t.peek a = s.peek a) ∧ t.input = s.input ∧ t.txn = s.txn

theorem State.KeepsButCtrl.busWrite {s u : State} (h : s.KeepsButCtrl u) (v : Byte) :
    s.KeepsButCtrl (u.busWrite .ctrl v).2 := by
  obtain ⟨hdig, hpeek, hinput, htxn⟩ := h
  refine ⟨?_, fun a ha => (State.busWrite_peek_ne ha).trans (hpeek a ha), ?_, ?_⟩ <;>
    rcases u.busWrite_cases .ctrl v with e | e | e <;>
    simpa [e, State.wrote, State.failedWrite, State.hungWrite]

theorem State.KeepsButCtrl.runInstr {i : Instr} (s : State) (hctrl : ∀ w ∈ plannedWrites i, w.1 = .ctrl) :
    s.KeepsButCtrl (s.runInstr i) := by
  refine State.runInstr_keeps (P := s.KeepsButCtrl) ⟨rfl, fun _ _ => rfl, rfl, rfl⟩ (fun u r v hmem _ hu => ?_)
    (fun _ _ _ hu => hu) fun _ _ hu => hu
  obtain rfl : r = .ctrl := hctrl _ hmem
  exact hu.busWrite v

@[simp] theorem State.busWrite_hs (s : State) (r : ChipReg) (v : Byte) : (s.busWrite r v).2.hs = s.hs := by
  rcases s.busWrite_cases r v with e | e | e <;> simp [e, State.wrote, State.failedWrite, State.hungWrite]

@[simp] theorem State.busWrite_mode (s : State) (r : ChipReg) (v : Byte) : (s.busWrite r v).2.mode = s.mode := by
  rcases s.busWrite_cases r v with e | e | e <;> simp [e]

theorem State.busWrites_hs (ws : List Write) (s : State) : (s.busWrites ws).2.hs = s.hs :=
  State.busWrites_keeps (P := fun u => u.hs = s.hs) rfl fun u r v _ _ hu => (u.busWrite_hs r v).trans hu

theorem State.busWrites_mode (ws : List Write) (s : State) : (s.busWrites ws).2.mode = s.mode :=
  State.busWrites_keeps (P := fun u => u.mode = s.mode) rfl fun u r v _ _ hu => (u.busWrite_mode r v).trans hu

/-- `hs` changes only by INIT and CLOSE (10_state.md R14). -/
theorem State.runInstr_hs {i : Instr} (hinit : i ≠ .init) (hclose : i ≠ .close) (s : State) : (s.runInstr i).hs = s.hs := by
  have henter : (s.enter i).hs = s.hs := by rw [State.enter_hs, if_neg hinit]
  have hfinish (e : WriteEnd) (t : State) : (t.finish i s.hs e).hs = t.hs := by
    cases i
    case init => exact absurd rfl hinit
    case close => exact absurd rfl hclose
    all_goals cases e <;> rfl
  exact (hfinish _ _).trans ((State.busWrites_hs _ _).trans henter)

/-- `mode` changes only by INIT and ENABLE (41_control_writer.md R94). -/
theorem State.runInstr_mode {i : Instr} (hinit : i ≠ .init) (henable : ∀ on b, i ≠ .enable on b) (s : State) :
    (s.runInstr i).mode = s.mode := by
  have hfinish (e : WriteEnd) (t : State) : (t.finish i s.hs e).mode = t.mode := by
    cases i
    case init => exact absurd rfl hinit
    case enable on b => exact absurd rfl (henable on b)
    all_goals cases e <;> rfl
  exact (hfinish _ _).trans ((State.busWrites_mode _ _).trans (State.enter_mode i s))

/-- Settles O41: the three write the control register alone, and only INIT touches `hs`, only INIT and ENABLE `mode`. -/
theorem controlWritersFrame : Obligations.ControlWritersFrame := by
  intro i s t hi hexec
  rw [exec_eq] at hexec
  split at hexec <;> cases hexec
  · have hctrl : ∀ w ∈ plannedWrites i, w.1 = .ctrl := by
      rcases hi with rfl | ⟨on, b, rfl⟩ | ⟨v, rfl⟩ <;> exact List.forall_mem_singleton.mpr rfl
    obtain ⟨hdig, hpeek, hinput, htxn⟩ := State.KeepsButCtrl.runInstr s hctrl
    have hclose : i ≠ .close := by rcases hi with rfl | ⟨on, b, rfl⟩ | ⟨v, rfl⟩ <;> nofun
    refine ⟨hdig, hpeek, hinput, htxn, fun hinit => State.runInstr_hs hinit hclose s, ?_⟩
    rintro ⟨v, rfl⟩
    exact State.runInstr_mode (i := .wrCtrl v) nofun (fun _ _ => nofun) s
  · exact ⟨rfl, fun _ _ => rfl, rfl, rfl, fun _ => rfl, fun _ => rfl⟩

end Sys2Proof.Machine

/-! SUPPORT. The command encoding, both ways (30_encoding.md R57 to R61): the fields of a command word, its length, and for each
format what the decoder makes of an encoding and which bytes it reads as a command. -/

namespace Sys2Proof

/-! ### Fields -/

theorem fitsSext8_iff {v : Int} : fitsSext8 v = true ↔ -128 ≤ v ∧ v ≤ 127 := by simp [fitsSext8]

theorem fitsSext32_iff {v : Int} : fitsSext32 v = true ↔ -2147483648 ≤ v ∧ v ≤ 2147483647 := by simp [fitsSext32]

theorem fitsLength_iff {text : List Byte} : fitsLength text = true ↔ text.length ≤ 255 := by simp [fitsLength]

theorem toInt_ofInt_of_fitsSext8 {v : Int} (h : fitsSext8 v = true) : (BitVec.ofInt 8 v).toInt = v := by
  obtain ⟨hlow, hhigh⟩ := fitsSext8_iff.mp h
  exact BitVec.toInt_ofInt_eq_self (by decide) (by omega) (by omega)

theorem fitsSext8_toInt (b : Byte) : fitsSext8 b.toInt = true := by
  have hlow := b.le_toInt
  have hhigh := b.toInt_lt
  exact fitsSext8_iff.mpr ⟨by omega, by omega⟩

theorem toNat_ofNat_length_of_fitsLength {text : List Byte} (h : fitsLength text = true) :
    (BitVec.ofNat 8 text.length).toNat = text.length := by
  have hlen := fitsLength_iff.mp h
  rw [BitVec.toNat_ofNat, Nat.mod_eq_of_lt (by omega)]

theorem reservedBits_eq_zero_iff (b : Byte) : reservedBits b = 0 ↔ b < 2 := by revert b; decide

@[simp] theorem reservedBits_flagByte (on : Bool) : reservedBits (flagByte on) = 0 := by cases on <;> decide

@[simp] theorem flagBit_flagByte (on : Bool) : flagBit (flagByte on) = on := by cases on <;> decide

/-- With the reserved bits 0 no bit of the byte is ignored (R60 b). -/
theorem flagByte_flagBit {b : Byte} (h : reservedBits b = 0) : flagByte (flagBit b) = b := by revert b; decide

/-- The number of a SHOWNUMBER is the word whose bytes it is given, least significant first (R57). -/
theorem numField_extractLsb' (w : BitVec 32) :
    numField (w.extractLsb' 0 8) (w.extractLsb' 8 8) (w.extractLsb' 16 8) (w.extractLsb' 24 8) = w.toInt := by
  rw [numField,
    BitVec.extractLsb'_append_extractLsb'_eq_extractLsb' (start₁ := 16) (len₁ := 8) (start₂ := 24) rfl,
    BitVec.extractLsb'_append_extractLsb'_eq_extractLsb' (start₁ := 8) (len₁ := 8) (start₂ := 16) rfl,
    BitVec.extractLsb'_append_extractLsb'_eq_extractLsb' (start₁ := 0) (len₁ := 8) (start₂ := 8) rfl]
  exact congrArg _ BitVec.extractLsb'_eq_self

theorem extractLsb'_append_byte {n : Nat} (x : BitVec n) (b : Byte) (k : Nat) :
    (x ++ b).extractLsb' (8 + k) 8 = x.extractLsb' k 8 := by
  rw [BitVec.extractLsb'_append_eq_of_le (Nat.le_add_right 8 k), Nat.add_sub_cancel_left]

theorem numBytes_numField (b1 b2 b3 b4 : Byte) : numBytes (numField b1 b2 b3 b4) = [b1, b2, b3, b4] := by
  rw [numBytes, numField, BitVec.ofInt_toInt]
  have h1 : (b4 ++ b3 ++ b2 ++ b1 : BitVec 32).extractLsb' 0 8 = b1 := BitVec.extractLsb'_append_eq_right
  have h2 : (b4 ++ b3 ++ b2 ++ b1 : BitVec 32).extractLsb' 8 8 = b2 :=
    (extractLsb'_append_byte _ b1 0).trans BitVec.extractLsb'_append_eq_right
  have h3 : (b4 ++ b3 ++ b2 ++ b1 : BitVec 32).extractLsb' 16 8 = b3 :=
    (extractLsb'_append_byte _ b1 8).trans ((extractLsb'_append_byte _ b2 0).trans BitVec.extractLsb'_append_eq_right)
  have h4 : (b4 ++ b3 ++ b2 ++ b1 : BitVec 32).extractLsb' 24 8 = b4 :=
    (extractLsb'_append_byte _ b1 16).trans ((extractLsb'_append_byte _ b2 8).trans BitVec.extractLsb'_append_eq_left)
  rw [h1, h2, h3, h4]

theorem fitsSext32_numField (b1 b2 b3 b4 : Byte) : fitsSext32 (numField b1 b2 b3 b4) = true := by
  have hlow := (b4 ++ b3 ++ b2 ++ b1 : BitVec 32).le_toInt
  have hhigh := (b4 ++ b3 ++ b2 ++ b1 : BitVec 32).toInt_lt
  exact fitsSext32_iff.mpr ⟨by simpa [numField] using hlow, by rw [numField]; omega⟩

/-! ### From an instruction to its bytes and back -/

theorem decodeEnable_fields {brightness : Int} (h : fitsSext8 brightness = true) (on : Bool) (rest : List Byte) :
    decodeEnable (flagByte on :: BitVec.ofInt 8 brightness :: rest) = .instr (.enable on brightness) rest := by
  simp [decodeEnable, toInt_ofInt_of_fitsSext8 h]

theorem decodeSetDigit_fields {index : Int} (h : fitsSext8 index = true) (c : Byte) (dot : Bool) (rest : List Byte) :
    decodeSetDigit (BitVec.ofInt 8 index :: c :: flagByte dot :: rest) = .instr (.setDigit index c dot) rest := by
  simp [decodeSetDigit, toInt_ofInt_of_fitsSext8 h]

theorem decodePrint_fields {text : List Byte} (h : fitsLength text = true) (rest : List Byte) :
    decodePrint (BitVec.ofNat 8 text.length :: (text ++ rest)) = .instr (.print text) rest := by
  simp [decodePrint, toNat_ofNat_length_of_fitsLength h, -BitVec.toNat_ofNat]

theorem decodeShowNumber_fields {num : Int} (h : fitsSext32 num = true) (rest : List Byte) :
    decodeShowNumber (numBytes num ++ rest) = .instr (.showNumber num) rest := by
  obtain ⟨hlow, hhigh⟩ := fitsSext32_iff.mp h
  have hnum : (BitVec.ofInt 32 num).toInt = num := BitVec.toInt_ofInt_eq_self (by decide) (by omega) (by omega)
  simp only [numBytes, decodeShowNumber, List.cons_append, List.nil_append, numField_extractLsb', hnum]

/-- Settles O1: each format's decoder reads its fields back, and the opcode selects the format. -/
theorem decodeOfEncodedCommand : Obligations.DecodeOfEncodedCommand := by
  intro i rest hcommand hwf
  cases i with
  | enable on brightness => exact decodeEnable_fields hwf on rest
  | setDigit index c dot => exact decodeSetDigit_fields hwf c dot rest
  | print text => exact decodePrint_fields hwf rest
  | showNumber num => exact decodeShowNumber_fields hwf rest
  | init | clear | close | encode | withDot => rfl
  | _ => cases hcommand

/-- Settles O2: the address selects the transaction, and the data byte is its own encoding. -/
theorem decodeOfEncodedTransaction : Obligations.DecodeOfEncodedTransaction := by
  intro i rest htransaction
  cases i with
  | wrCtrl | wrDig0 | wrDig1 | wrDig2 | wrDig3 => rfl
  | _ => cases htransaction

/-! ### From bytes to an instruction and back -/

section Inversion

variable {bytes rest : List Byte} {i : Instr}

theorem decodeEnable_inv (h : decodeEnable bytes = .instr i rest) : i.wf = true ∧ 0x02 :: bytes = encode i ++ rest := by
  unfold decodeEnable at h
  split at h
  next onb brt more =>
    split at h <;> cases h
    next hreserved => exact ⟨fitsSext8_toInt brt, by simp [encode, flagByte_flagBit hreserved]⟩
  next => cases h

theorem decodeSetDigit_inv (h : decodeSetDigit bytes = .instr i rest) : i.wf = true ∧ 0x04 :: bytes = encode i ++ rest := by
  unfold decodeSetDigit at h
  split at h
  next idx c dotb more =>
    split at h <;> cases h
    next hreserved => exact ⟨fitsSext8_toInt idx, by simp [encode, flagByte_flagBit hreserved]⟩
  next => cases h

theorem decodePrint_inv (h : decodePrint bytes = .instr i rest) : i.wf = true ∧ 0x05 :: bytes = encode i ++ rest := by
  unfold decodePrint at h
  split at h
  next n more =>
    split at h <;> cases h
    next hlen =>
      have htake : (more.take n.toNat).length = n.toNat := List.length_take_of_le hlen
      refine ⟨fitsLength_iff.mpr ?_, by simp [encode, htake]⟩
      have := n.isLt
      omega
  next => cases h

theorem decodeShowNumber_inv (h : decodeShowNumber bytes = .instr i rest) :
    i.wf = true ∧ 0x06 :: bytes = encode i ++ rest := by
  unfold decodeShowNumber at h
  split at h <;> cases h
  next b1 b2 b3 b4 => exact ⟨fitsSext32_numField b1 b2 b3 b4, by simp [encode, numBytes_numField]⟩

theorem decodeArg_inv {op : Byte} {make : Byte → Instr} (hmake : ∀ b, (make b).wf = true ∧ encode (make b) = [op, b])
    (h : decodeArg op make bytes = .instr i rest) : i.wf = true ∧ op :: bytes = encode i ++ rest := by
  unfold decodeArg at h
  split at h <;> cases h
  next arg =>
    obtain ⟨hwf, hencode⟩ := hmake arg
    exact ⟨hwf, by simp [hencode]⟩

/-- The bytes of a decoded command are an encoding, so no bit of them is ignored (R57 to R60). -/
theorem decodeCommand_inv (h : decodeCommand bytes = .instr i rest) : i.wf = true ∧ bytes = encode i ++ rest := by
  cases bytes with
  | nil => cases h
  | cons op bytes =>
    simp only [decodeCommand, decodeOpcode] at h
    split_ifs at h
    case pos hop => cases h; exact ⟨rfl, by rw [hop]; rfl⟩
    case pos hop => rw [hop]; exact decodeEnable_inv h
    case pos hop => cases h; exact ⟨rfl, by rw [hop]; rfl⟩
    case pos hop => rw [hop]; exact decodeSetDigit_inv h
    case pos hop => rw [hop]; exact decodePrint_inv h
    case pos hop => rw [hop]; exact decodeShowNumber_inv h
    case pos hop => cases h; exact ⟨rfl, by rw [hop]; rfl⟩
    case pos hop => exact decodeArg_inv (fun b => ⟨rfl, by rw [hop]; rfl⟩) h
    case pos hop => exact decodeArg_inv (fun b => ⟨rfl, by rw [hop]; rfl⟩) h

theorem transactionOf_inv {addr data : Byte} (h : transactionOf addr data = some i) :
    i.isCommand = false ∧ encode i = [addr, data] := by
  unfold transactionOf at h
  split_ifs at h with haddr haddr haddr haddr haddr <;> cases h <;> exact ⟨rfl, by rw [haddr]; rfl⟩

theorem decodeTransaction_inv (h : decodeTransaction bytes = .instr i rest) :
    i.isCommand = false ∧ bytes = encode i ++ rest := by
  unfold decodeTransaction at h
  split at h
  next addr data more =>
    split at h <;> cases h
    next hi =>
      obtain ⟨htransaction, hencode⟩ := transactionOf_inv hi
      exact ⟨htransaction, by simp [hencode]⟩
  next => cases h

end Inversion

/-- The length of a command word is what its first two bytes say (R61). -/
theorem commandLength_encode {i : Instr} (hcommand : i.isCommand = true) (hwf : i.wf = true) (rest : List Byte) :
    commandLength ((encode i ++ rest).headD 0) ((encode i ++ rest).tail.headD 0) = (encode i).length := by
  cases i with
  | print text =>
    calc 2 + (BitVec.ofNat 8 text.length).toNat
      _ = 2 + text.length := by rw [toNat_ofNat_length_of_fitsLength hwf]
      _ = (encode (.print text)).length := (Laws.EncodingShape.print text).2.symm
  | init | enable | clear | setDigit | showNumber | close | encode | withDot => rfl
  | _ => cases hcommand

/-- Settles O3: every format's bytes are rebuilt from the fields read off them, and the first two give the length. -/
theorem commandBytesAreItsEncoding : Obligations.CommandBytesAreItsEncoding := by
  intro bytes i rest h
  have hcommand := Machine.decodeCommand_isCommand h
  obtain ⟨hwf, rfl⟩ := decodeCommand_inv h
  exact ⟨hcommand, hwf, rfl, (commandLength_encode hcommand hwf rest).symm⟩

/-! ### Reserved opcodes -/

/-- The nine opcodes are 0x01 to 0x09 (R58). -/
theorem reserved_iff_not_mem_opcodes (op : Byte) :
    (op = 0x00 ∨ 0x0A ≤ op) ↔ op ∉ ([0x01, 0x02, 0x03, 0x04, 0x05, 0x06, 0x07, 0x08, 0x09] : List Byte) := by
  revert op; decide

theorem decodeEnable_ne_reserved (bytes : List Byte) (op : Byte) (rest : List Byte) :
    decodeEnable bytes ≠ .reserved op rest := by
  unfold decodeEnable
  split
  · split <;> nofun
  · nofun

theorem decodeSetDigit_ne_reserved (bytes : List Byte) (op : Byte) (rest : List Byte) :
    decodeSetDigit bytes ≠ .reserved op rest := by
  unfold decodeSetDigit
  split
  · split <;> nofun
  · nofun

theorem decodePrint_ne_reserved (bytes : List Byte) (op : Byte) (rest : List Byte) :
    decodePrint bytes ≠ .reserved op rest := by
  unfold decodePrint
  split
  · split <;> nofun
  · nofun

theorem decodeShowNumber_ne_reserved (bytes : List Byte) (op : Byte) (rest : List Byte) :
    decodeShowNumber bytes ≠ .reserved op rest := by
  unfold decodeShowNumber
  split <;> nofun

theorem decodeArg_ne_reserved (arg : Byte) (make : Byte → Instr) (bytes : List Byte) (op : Byte) (rest : List Byte) :
    decodeArg arg make bytes ≠ .reserved op rest := by
  unfold decodeArg
  split <;> nofun

theorem decodeCommand_of_reserved {op : Byte} (h : op = 0x00 ∨ 0x0A ≤ op) (rest : List Byte) :
    decodeCommand (op :: rest) = .reserved op rest := by
  rw [reserved_iff_not_mem_opcodes] at h
  simp only [List.mem_cons, List.not_mem_nil, or_false, not_or] at h
  simp only [decodeCommand, decodeOpcode, h, if_false]

/-- Settles O4: each of the nine opcodes goes to its format's decoder, which answers `reserved` for no bytes. -/
theorem reservedOpcodesAreTheRest : Obligations.ReservedOpcodesAreTheRest := by
  refine fun op rest => ⟨fun h => (reserved_iff_not_mem_opcodes op).mpr fun hop => ?_, fun h => decodeCommand_of_reserved h rest⟩
  simp only [List.mem_cons, List.not_mem_nil, or_false] at hop
  rcases hop with rfl | rfl | rfl | rfl | rfl | rfl | rfl | rfl | rfl
  · cases h
  · exact decodeEnable_ne_reserved _ _ _ h
  · cases h
  · exact decodeSetDigit_ne_reserved _ _ _ h
  · exact decodePrint_ne_reserved _ _ _ h
  · exact decodeShowNumber_ne_reserved _ _ _ h
  · cases h
  · exact decodeArg_ne_reserved _ _ _ _ _ h
  · exact decodeArg_ne_reserved _ _ _ _ _ h

/-! ### Malformed commands -/

theorem decodeCommand_enable_of_reservedBits {flag : Byte} (h : 2 ≤ flag) (brt : Byte) (rest : List Byte) :
    decodeCommand (0x02 :: flag :: brt :: rest) = .malformed 0x02 rest :=
  if_neg (mt (reservedBits_eq_zero_iff flag).mp (BitVec.not_lt.mpr h))

theorem decodeCommand_setDigit_of_reservedBits {flag : Byte} (h : 2 ≤ flag) (idx c : Byte) (rest : List Byte) :
    decodeCommand (0x04 :: idx :: c :: flag :: rest) = .malformed 0x04 rest :=
  if_neg (mt (reservedBits_eq_zero_iff flag).mp (BitVec.not_lt.mpr h))

/-! ### Written-out values -/

/-- Settles O5: the decoder run on the seven words. -/
theorem writtenOutWordsDecode : Obligations.WrittenOutWordsDecode := by
  refine ⟨?_, ?_, ?_, ?_, ?_, ?_, ?_⟩ <;> decide

/-- Settles O14: the table of R52, entry by entry. -/
theorem controlByteTable : Obligations.ControlByteTable := by
  refine ⟨?_, ?_, ?_, ?_, ?_, ?_, ?_, ?_, ?_⟩ <;> decide

/-- Settles O40: the status codes of R63. -/
theorem returnBytes : Obligations.ReturnBytes := ⟨rfl, rfl, rfl, fun _ => rfl⟩

end Sys2Proof

/-! SUPPORT. What a step fetches, by what its decoder reads, and what it does then (30_encoding.md R50, R56, R60, R63). -/

namespace Sys2Proof.Machine

/-! ### The command side -/

section Command

variable {s : State} {rest : List Byte}

theorem State.fetch_of_command (hfree : s.blocked = none) (htxn : s.txn = []) : s.fetch = s.fetchCommand := by
  simp [State.fetch, hfree, htxn]

theorem step_of_command {i : Instr} (hfree : s.blocked = none) (htxn : s.txn = [])
    (hdecode : decodeCommand s.input = .instr i rest) : step s = exec i { s with input := rest } := by
  rw [step, State.fetch_of_command hfree htxn, State.fetchCommand, hdecode]

theorem step_of_reserved {op : Byte} (hfree : s.blocked = none) (htxn : s.txn = [])
    (hdecode : decodeCommand s.input = .reserved op rest) :
    step s = .next { s with input := rest, returns := s.returns ++ [⟨.refused, none⟩] } := by
  rw [step, State.fetch_of_command hfree htxn, State.fetchCommand, hdecode]
  rfl

theorem step_of_malformed {op : Byte} (hfree : s.blocked = none) (htxn : s.txn = [])
    (hdecode : decodeCommand s.input = .malformed op rest) :
    step s = .next { s with input := rest, returns := s.returns ++ [⟨.refused, none⟩] } := by
  rw [step, State.fetch_of_command hfree htxn, State.fetchCommand, hdecode]
  rfl

end Command

/-- Settles O6: the command side is fetched from, and finds the command. -/
theorem stepRunsDecodedCommand : Obligations.StepRunsDecodedCommand := fun _ _ _ => step_of_command

/-- Settles O8: a reserved opcode decodes as such, and is refused. -/
theorem reservedOpcodeIsRefused : Obligations.ReservedOpcodeIsRefused := fun _ _ rest hfree htxn hinput hop =>
  step_of_reserved hfree htxn (hinput ▸ decodeCommand_of_reserved hop rest)

/-- Settles O9: a flag byte of 2 or more has a nonzero reserved bit, and the malformed command is refused. -/
theorem nonzeroReservedBitIsRefused : Obligations.NonzeroReservedBitIsRefused := fun _ _ rest hfree htxn hflag =>
  ⟨fun brt hinput => step_of_malformed hfree htxn (hinput ▸ decodeCommand_enable_of_reservedBits hflag brt rest),
    fun idx c hinput => step_of_malformed hfree htxn (hinput ▸ decodeCommand_setDigit_of_reservedBits hflag idx c rest)⟩

/-! ### The bus side -/

theorem State.fetch_of_transaction {s : State} (hfree : s.blocked = none) (htxn : s.txn ≠ []) :
    s.fetch = s.fetchTransaction := by
  simp [State.fetch, hfree, htxn]

theorem step_of_transaction {s : State} {i : Instr} {rest : List Byte} (hfree : s.blocked = none)
    (hdecode : decodeTransaction s.txn = .instr i rest) : step s = exec i { s with txn := rest } := by
  have htxn : s.txn ≠ [] := fun hnil => by simp [hnil, decodeTransaction] at hdecode
  rw [step, State.fetch_of_transaction hfree htxn, State.fetchTransaction, hdecode]

/-- Settles O7: bytes that decode are there, so the bus side is fetched from. -/
theorem stepRunsDecodedTransaction : Obligations.StepRunsDecodedTransaction := fun _ _ _ => step_of_transaction

/-- Settles O55: one byte is no pair, and is enough to keep the command side waiting. -/
theorem halfTransactionWaits : Obligations.HalfTransactionWaits := by
  intro s addr hfree htxn
  have hpending : s.txn ≠ [] := by simp [htxn]
  rw [step, State.fetch_of_transaction hfree hpending, State.fetchTransaction, htxn]
  rfl

/-! ### A placed instruction -/

/-- The numbering of a row's bits takes exactly one instruction off the front (R51, R61). -/
theorem oneInstruction_encode_append {i : Instr} (hwf : i.wf = true) (rest : List Byte) :
    oneInstruction (encode i ++ rest) = encode i := by
  cases i with
  | print text =>
    have hlength := commandLength_encode (i := .print text) rfl hwf rest
    exact (congrArg (fun n => List.take n (encode (.print text) ++ rest)) hlength).trans List.take_left
  | init | enable | clear | setDigit | showNumber | close | encode | withDot => rfl
  | wrCtrl | wrDig0 | wrDig1 | wrDig2 | wrDig3 => rfl

theorem oneInstruction_prefix (bytes : List Byte) : oneInstruction bytes <+: bytes := by
  cases bytes with
  | nil => exact List.prefix_rfl
  | cons op rest =>
    simp only [oneInstruction]
    split
    · exact List.take_prefix _ _
    · exact List.take_prefix _ _

theorem wf_of_not_isCommand {i : Instr} (h : i.isCommand = false) : i.wf = true := by
  cases i with
  | wrCtrl | wrDig0 | wrDig1 | wrDig2 | wrDig3 => rfl
  | _ => cases h

/-- A row's bits that decode are those of a well-formed instruction, with none left over. -/
theorem oneInstruction_of_decodeTableWord {nbits w : Nat} {i : Instr} (h : decodeTableWord nbits w = some i) :
    i.wf = true ∧ oneInstruction (tableBytes nbits w) = encode i := by
  have hencoded : ∃ rest, i.wf = true ∧ oneInstruction (tableBytes nbits w) = encode i ++ rest := by
    simp only [decodeTableWord] at h
    split at h
    next rest hd => cases h; exact ⟨rest, decodeCommand_inv hd⟩
    next =>
      split at h
      next rest hd =>
        cases h
        obtain ⟨htransaction, hbytes⟩ := decodeTransaction_inv hd
        exact ⟨rest, wf_of_not_isCommand htransaction, hbytes⟩
      next => cases h
  obtain ⟨rest, hwf, hbytes⟩ := hencoded
  obtain ⟨more, hmore⟩ := oneInstruction_prefix (tableBytes nbits w)
  refine ⟨hwf, ?_⟩
  rw [← hmore, hbytes, List.append_assoc, oneInstruction_encode_append hwf]

theorem State.placeInstruction_command {i : Instr} (h : i.isCommand = true) (s : State) :
    s.placeInstruction (encode i) = { s with input := encode i ++ s.input, txn := [], blocked := none } := by
  cases i with
  | init | enable | clear | setDigit | print | showNumber | close | encode | withDot => rfl
  | _ => cases h

theorem State.placeInstruction_transaction {i : Instr} (h : i.isCommand = false) (s : State) :
    s.placeInstruction (encode i) = { s with txn := encode i ++ s.txn, blocked := none } := by
  cases i with
  | wrCtrl | wrDig0 | wrDig1 | wrDig2 | wrDig3 => rfl
  | _ => cases h

/-- Settles O10: the word is the instruction's encoding, placed on its own side, where decoding it leaves what stood there. -/
theorem placedInstructionRunsNext : Obligations.PlacedInstructionRunsNext := by
  intro s nbits w i htxn hword
  obtain ⟨hwf, hbytes⟩ := oneInstruction_of_decodeTableWord hword
  rw [State.withFetchWord, hbytes]
  cases hcommand : i.isCommand with
  | true =>
    rw [State.placeInstruction_command hcommand, step_of_command rfl rfl (decodeOfEncodedCommand i s.input hcommand hwf),
      ← htxn]
  | false =>
    rw [State.placeInstruction_transaction hcommand, step_of_transaction rfl (decodeOfEncodedTransaction i s.txn hcommand)]

/-! ### What a command returns -/

theorem State.complete_returns {i : Instr} (h : i.isCommand = true) (t : State) :
    ∃ r, (t.complete i).returns = t.returns ++ [r] := by
  cases i with
  | init | enable | clear | setDigit | print | showNumber | close | encode | withDot => exact ⟨_, rfl⟩
  | _ => cases h

@[simp] theorem State.abandon_returns (i : Instr) (hs : HandleState) (t : State) :
    (t.abandon i hs).returns = t.returns ++ [⟨.busFault, none⟩] := by cases i <;> rfl
@[simp] theorem State.abandon_blocked (i : Instr) (hs : HandleState) (t : State) :
    (t.abandon i hs).blocked = t.blocked := by cases i <;> rfl

/-- Settles O38: a refusal is one return, and a run ends with one unless its last write never returns. -/
theorem oneStatusOrHang : Obligations.OneStatusOrHang := by
  intro i s t hcommand hfree hexec
  rw [exec_eq] at hexec
  split at hexec <;> cases hexec
  · unfold State.runInstr
    rcases (s.enter i).busWrites_cases (plannedWrites i) with e | ⟨k, r, v, -, e⟩ | ⟨k, r, v, -, e⟩ <;> rw [e]
    · obtain ⟨r, hr⟩ := State.complete_returns hcommand ((s.enter i).afterWrites (plannedWrites i))
      exact .inl ⟨by simp [State.finish, hfree], r, by simpa [State.finish] using hr⟩
    · exact .inl ⟨by simp [State.finish, State.failedWrite, hfree], ⟨.busFault, none⟩, by simp [State.finish, State.failedWrite]⟩
    · have hblocked := State.hungWrite_blocked ((s.enter i).afterWrites ((plannedWrites i).take k)) r v
      exact .inr ⟨r.addr, v, hblocked, by simp [State.finish, State.hungWrite], step_of_blocked hblocked⟩
  · exact .inl ⟨hfree, _, rfl⟩

end Sys2Proof.Machine

/-! SUPPORT. The segment encoder: `GLYPH` meets the rules of 40_segment_encoder.md R70 to R72 whatever its OPEN values, the
default table of R75 meets the same rules, and the two operations return what R73 and R74 say. -/

namespace Sys2Proof.Machine

/-! ### The keys and their cases -/

theorem glyphKeys_eq : glyphKeys = supportedCharacters.map codeOf := by decide

theorem isSupported_iff (c : Byte) : isSupported c = true ↔ c ∈ supportedCharacters.map codeOf := by
  rw [isSupported, glyphKeys_eq, List.contains_iff_mem]

theorem upperCase_eq_space_iff (c : Byte) : upperCase c = 0x20 ↔ c = 0x20 := by revert c; decide

@[simp] theorem isSupported_upperCase (c : Byte) : isSupported (upperCase c) = isSupported c := by revert c; decide

@[simp] theorem upperCase_upperCase (c : Byte) : upperCase (upperCase c) = upperCase c := by revert c; decide

@[simp] theorem hasOwnLowerCase_upperCase (c : Byte) : hasOwnLowerCase (upperCase c) = false := by revert c; decide

theorem ne_space_and_isSupported_of_hasOwnLowerCase {c : Byte} (h : hasOwnLowerCase c = true) :
    c ≠ 0x20 ∧ isSupported c = true := by
  revert c; decide

/-! ### The pattern of a key -/

theorem nonzeroPattern_ne_zero (k : Fin 127) : nonzeroPattern k ≠ 0 := by revert k; decide

theorem keyPattern_upperCase (c : Byte) : keyPattern (upperCase c) = Config.glyphPattern (upperCase c) := by
  simp [keyPattern]

/-- R72: of a letter's two patterns, those of c, h and l alone differ. -/
theorem keyPattern_upperCase_eq_iff (c : Byte) : keyPattern (upperCase c) = keyPattern c ↔ hasOwnLowerCase c = false := by
  rw [keyPattern_upperCase, keyPattern]
  cases hasOwnLowerCase c with
  | false => simp
  | true =>
    simp only [if_true, Bool.true_eq_false, iff_false]
    exact fun heq => nonzeroPattern_ne_zero _ ((BitVec.xor_right_inj _).mp (heq.symm.trans BitVec.xor_zero.symm))

/-! ### `GLYPH` -/

theorem glyph_of_not_isSupported {c : Byte} (h : isSupported c = false) : glyph c = 0x00 := by simp [glyph, h]

theorem glyph_of_isSupported {c : Byte} (hspace : c ≠ 0x20) (h : isSupported c = true) :
    glyph c = (keyPattern c).setWidth 8 := by
  rw [glyph, if_neg hspace, if_pos h]

theorem glyph_of_not_mem {c : Byte} (h : c ∉ supportedCharacters.map codeOf) : glyph c = 0x00 :=
  glyph_of_not_isSupported (Bool.eq_false_iff.mpr (mt (isSupported_iff c).mp h))

theorem glyph_getLsbD_7 (c : Byte) : (glyph c).getLsbD 7 = false := by
  unfold glyph
  split_ifs
  · rfl
  · simp
  · rfl

theorem glyph_upper_eq_lower {upper lower : Byte} (hcase : upperCase lower = upper) (h : hasOwnLowerCase lower = false) :
    glyph upper = glyph lower := by
  subst hcase
  simp only [glyph, upperCase_eq_space_iff, isSupported_upperCase, (keyPattern_upperCase_eq_iff lower).mpr h]

theorem glyph_upper_ne_lower {upper lower : Byte} (hcase : upperCase lower = upper) (h : hasOwnLowerCase lower = true) :
    glyph upper ≠ glyph lower := by
  subst hcase
  obtain ⟨hspace, hkey⟩ := ne_space_and_isSupported_of_hasOwnLowerCase h
  have hpattern : keyPattern (upperCase lower) ≠ keyPattern lower := by simp [keyPattern_upperCase_eq_iff, h]
  rw [glyph_of_isSupported (mt (upperCase_eq_space_iff lower).mp hspace) (by simpa), glyph_of_isSupported hspace hkey]
  intro heq
  exact hpattern (by simpa using congrArg (BitVec.setWidth 7) heq)

/-- Settles O20: bit 7 and blanks by the branches of `glyph`, the cases by whether the lower-case letter has its own pattern. -/
theorem glyphTableIsAdmissible : Obligations.GlyphTableIsAdmissible where
  bit7Clear := glyph_getLsbD_7
  unsupportedBlank _ := glyph_of_not_mem
  spaceBlank := rfl
  distinctCases := by refine ⟨?_, ?_, ?_⟩ <;> exact glyph_upper_ne_lower rfl rfl
  sharedCases := by refine ⟨?_, ?_, ?_, ?_, ?_, ?_, ?_, ?_⟩ <;> exact glyph_upper_eq_lower rfl rfl

/-! ### The default table -/

theorem segmentBit_getLsbD_7 (segment : Segment) : ((1 <<< segment.bit : Nat) : Byte).getLsbD 7 = false := by
  cases segment <;> rfl

/-- Lighting a segment leaves bit 7, the decimal point's, as it was (R54, R76). -/
theorem patternOfSegments_getLsbD_7 (lit : List Segment) : (patternOfSegments lit).getLsbD 7 = false := by
  refine List.foldlRecOn (motive := fun pattern : Byte => pattern.getLsbD 7 = false) lit _ rfl
    fun pattern hclear segment _ => ?_
  rw [BitVec.getLsbD_or, hclear, segmentBit_getLsbD_7, Bool.or_false]

theorem glyphDefaultRows_keys : ∀ row ∈ glyphDefaultRows, ∀ c ∈ row.1, c ∈ supportedCharacters.map codeOf := by decide

theorem glyphDefault_getLsbD_7 (c : Byte) : (glyphDefault c).getLsbD 7 = false := by
  unfold glyphDefault
  split
  · exact patternOfSegments_getLsbD_7 _
  · rfl

theorem glyphDefault_of_not_mem {c : Byte} (h : c ∉ supportedCharacters.map codeOf) : glyphDefault c = 0x00 := by
  have hnone : glyphDefaultRows.find? (fun row => row.1.contains c) = none :=
    List.find?_eq_none.mpr fun row hrow hc => h (glyphDefaultRows_keys row hrow c (List.contains_iff_mem.mp hc))
  rw [glyphDefault, hnone]

/-- Settles O21: bit 7 and blanks for any rows of segments with those keys, the cases by evaluating the rows. -/
theorem defaultTableIsAdmissible : Obligations.DefaultTableIsAdmissible where
  bit7Clear := glyphDefault_getLsbD_7
  unsupportedBlank _ := glyphDefault_of_not_mem
  spaceBlank := by decide
  distinctCases := by decide
  sharedCases := by decide

/-! ### The operations -/

/-- Settles O18: ENCODE is admitted in every handle state and makes no writes, so it only returns its result. -/
theorem encodeOperation : Obligations.EncodeOperation :=
  ⟨fun c rest => decodeOfEncodedCommand (.encode c) rest rfl rfl,
    fun c _ => ⟨exec_of_admits (i := .encode c) rfl, glyph_of_not_mem⟩⟩

/-- Settles O19: as for ENCODE. -/
theorem withDotOperation : Obligations.WithDotOperation :=
  ⟨fun p rest => decodeOfEncodedCommand (.withDot p) rest rfl rfl, fun p _ => exec_of_admits (i := .withDot p) rfl⟩

end Sys2Proof.Machine

/-! SUPPORT. The control-register writer (41_control_writer.md): the clamp of R92, INIT, ENABLE and CLOSE as R90, R91 and
R93 say them, and R95: no operation depends on what the display is doing. -/

namespace Sys2Proof.Machine

/-! ### The clamp -/

/-- R92 without its cases: the clamp is a minimum and a maximum. -/
theorem clampBrightness_val (b : Int) : (clampBrightness b).val = (max 0 (min 7 b)).toNat := by
  unfold clampBrightness
  split_ifs with hlow hhigh
  · rw [Fin.val_zero]; omega
  · rw [min_eq_left hhigh.le]; rfl
  · rw [Fin.val_ofNat]; omega

theorem clampBrightness_eq (b : Int) : clampBrightness b = Fin.ofNat 8 (max 0 (min 7 b)).toNat :=
  Fin.ext (by rw [clampBrightness_val, Fin.val_ofNat]; omega)

/-- Settles O13: the first two clauses are branches of the clamp, the third its value. -/
theorem clampOnIntegers : Obligations.ClampOnIntegers := fun _ =>
  ⟨fun hlow => if_pos hlow, fun hhigh => (if_neg (by omega)).trans (if_pos hhigh), fun _ _ => by
    rw [clampBrightness_val]; omega⟩

/-! ### A refusal, and a run whose write fails -/

theorem exec_of_not_admits {i : Instr} {s : State} (h : admits s.hs i = false) : exec i s = .next s.refuse := by
  simp [exec_eq, h]

theorem State.runInstr_failsAt {i : Instr} {k : Nat} {s : State} {r : ChipReg} {v : Byte}
    (h : s.FailsAt k (plannedEntries i)) (hk : (plannedWrites i)[k]? = some (r, v)) :
    s.runInstr i = (((s.enter i).afterWrites ((plannedWrites i).take k)).failedWrite r v).abandon i s.hs := by
  rw [plannedEntries_eq, State.FailsAt, ← State.enter_answersTo i] at h
  simp [State.runInstr, State.busWrites_failsAt h hk, State.finish]

/-! ### An admitted instruction of one write -/

section OneWrite

variable {i : Instr} {s : State} {r : ChipReg} {v : Byte}

theorem exec_completes_of_one_write (hadmits : admits s.hs i = true) (hw : plannedWrites i = [(r, v)])
    (h : s.Completes (plannedEntries i)) : exec i s = .next (((s.enter i).wrote r v).complete i) := by
  rw [exec_of_admits hadmits, State.runInstr_completes h, hw]; rfl

theorem exec_fails_of_one_write (hadmits : admits s.hs i = true) (hw : plannedWrites i = [(r, v)])
    (h : s.FailsAt 0 (plannedEntries i)) : exec i s = .next (((s.enter i).failedWrite r v).abandon i s.hs) := by
  rw [exec_of_admits hadmits, State.runInstr_failsAt h (by rw [hw]; rfl)]; rfl

end OneWrite

theorem State.wrote_ctrl (s : State) (v : Byte) :
    s.wrote .ctrl v = { s with
      ctrl := v, trace := s.trace ++ [⟨0x24, v, true⟩], answers := s.answers.drop 1, writes := s.writes + 1 } := by
  rw [List.drop_one]; rfl

theorem State.failedWrite_ctrl (s : State) (v : Byte) :
    s.failedWrite .ctrl v = { s with
      ctrl := Config.failedWriteByte s.writes 0x24 v s.ctrl, trace := s.trace ++ [⟨0x24, v, false⟩]
      answers := s.answers.drop 1, writes := s.writes + 1 } := by
  rw [List.drop_one]; rfl

/-! ### INIT, ENABLE and CLOSE -/

/-- Settles O12: the one write of an INIT that is not refused, completed or failed. -/
theorem initOperation : Obligations.InitOperation := by
  refine ⟨fun rest => decodeOfEncodedCommand .init rest rfl rfl, fun s => ?_⟩
  have hadmits (hfree : s.hs ≠ .opened) : admits s.hs .init = true := by simpa [admits] using hfree
  refine ⟨fun hopen => ?_, fun hfree h => ?_, fun hfree h => ?_⟩
  · exact exec_of_not_admits (by simp [admits, hopen])
  · rw [exec_completes_of_one_write (hadmits hfree) rfl h, State.wrote_ctrl]; rfl
  · rw [exec_fails_of_one_write (hadmits hfree) rfl h, State.failedWrite_ctrl]; rfl

theorem decodeCommand_enable (on : Bool) (brt : Byte) (rest : List Byte) :
    decodeCommand (0x02 :: (if on then 0x01 else 0x00) :: brt :: rest) = .instr (.enable on brt.toInt) rest := by
  have h := decodeOfEncodedCommand (.enable on brt.toInt) rest rfl (fitsSext8_toInt brt)
  rwa [encode, BitVec.ofInt_toInt] at h

/-- Settles O15: the one write of an ENABLE that is not refused, its byte and mode by the clamp. -/
theorem enableOperation : Obligations.EnableOperation := by
  refine ⟨decodeCommand_enable, fun on brightness s => ?_⟩
  have hadmits (hopen : s.hs = .opened) (on' : Bool) : admits s.hs (.enable on' brightness) = true := by simp [admits, hopen]
  refine ⟨fun hclosed => ?_, fun hopen h => ?_, fun hopen h => ?_, fun hopen h => ?_⟩
  · exact exec_of_not_admits (by simpa [admits] using hclosed)
  · rw [exec_completes_of_one_write (hadmits hopen false) rfl h, State.wrote_ctrl]; rfl
  · rw [exec_completes_of_one_write (hadmits hopen true) rfl h, State.wrote_ctrl, enableByte_eq, ← clampBrightness_eq]; rfl
  · rw [exec_fails_of_one_write (hadmits hopen on) rfl h, State.failedWrite_ctrl]; rfl

/-- Settles O17: a CLOSE runs without a write. -/
theorem closeOperation : Obligations.CloseOperation :=
  ⟨fun rest => decodeOfEncodedCommand .close rest rfl rfl, fun _ =>
    ⟨fun hclosed => exec_of_not_admits (by simpa [admits] using hclosed),
      fun hopen => exec_of_admits (by simp [admits, hopen])⟩⟩

/-! ### Nothing depends on the display -/

section Display

/-- The state with the chip's registers and the ghost mode replaced (41_control_writer.md R95, 10_state.md R13). -/
def State.withDisplay (ctrl : Byte) (dig : Vector Byte 4) (mode : Mode) (s : State) : State :=
  { s with ctrl := ctrl, dig := dig, mode := mode }

variable {c : Byte} {d : Vector Byte 4} {m : Mode} {s u : State}

theorem State.withDisplay_hs (s : State) : (s.withDisplay c d m).hs = s.hs := rfl

theorem State.withDisplay_busAnswer (s : State) (addr v : Byte) :
    (s.withDisplay c d m).busAnswer addr v = s.busAnswer addr v := rfl

theorem State.withDisplay_setReg (r : ChipReg) (v : Byte) (s : State) :
    (s.setReg r v).withDisplay c d m = s.withDisplay c d m := by
  cases r <;> rfl

theorem State.withDisplay_wrote (r : ChipReg) (v : Byte) (s : State) :
    (s.wrote r v).withDisplay c d m = (s.withDisplay c d m).issueWrite.record ⟨r.addr, v, true⟩ :=
  congrArg (State.record _) (State.withDisplay_setReg r v s.issueWrite)

theorem State.withDisplay_failedWrite (r : ChipReg) (v : Byte) (s : State) :
    (s.failedWrite r v).withDisplay c d m = (s.withDisplay c d m).issueWrite.record ⟨r.addr, v, false⟩ :=
  congrArg (State.record _) (State.withDisplay_setReg r _ s.issueWrite)

theorem State.withDisplay_hungWrite (r : ChipReg) (v : Byte) (s : State) :
    (s.hungWrite r v).withDisplay c d m = (s.withDisplay c d m).issueWrite.hang r v :=
  congrArg (State.hang r v) (State.withDisplay_setReg r _ s.issueWrite)

/-- Writes end alike, and leave states that are alike but for the display, from states that are: the environment's answers do
not look at the display, and a failed write's free byte goes to a register. -/
theorem State.busWrites_withDisplay_congr (ws : List Write) (h : s.withDisplay c d m = u.withDisplay c d m) :
    (s.busWrites ws).1 = (u.busWrites ws).1 ∧
      (s.busWrites ws).2.withDisplay c d m = (u.busWrites ws).2.withDisplay c d m := by
  induction ws generalizing s u with
  | nil => exact ⟨rfl, h⟩
  | cons w ws ih =>
    obtain ⟨r, v⟩ := w
    have hanswer : u.busAnswer r.addr v = s.busAnswer r.addr v := by
      rw [← u.withDisplay_busAnswer, ← h, s.withDisplay_busAnswer]
    cases hs : s.busAnswer r.addr v with rw [hs] at hanswer
    | completes =>
      simp only [State.busWrites, State.busWrite_completes hs, State.busWrite_completes hanswer]
      exact ih (by simp only [State.withDisplay_wrote, h])
    | fails =>
      simp only [State.busWrites, State.busWrite_fails hs, State.busWrite_fails hanswer]
      exact ⟨trivial, by simp only [State.withDisplay_failedWrite, h]⟩
    | never =>
      simp only [State.busWrites, State.busWrite_never hs, State.busWrite_never hanswer]
      exact ⟨trivial, by simp only [State.withDisplay_hungWrite, h]⟩

theorem State.withDisplay_enter (i : Instr) (s : State) : (s.enter i).withDisplay c d m = (s.withDisplay c d m).enter i := by
  cases i <;> rfl

/-- What follows an instruction's writes sets the mode, at most, without a look at it. -/
theorem State.withDisplay_finish (i : Instr) (hs : HandleState) (e : WriteEnd) (t : State) :
    (t.finish i hs e).withDisplay c d m = ((t.withDisplay c d m).finish i hs e).withDisplay c d m := by
  cases e with
  | completed => cases i <;> rfl
  | failed => cases i <;> rfl
  | blocked => rfl

theorem State.runInstr_withDisplay_congr (i : Instr) (h : s.withDisplay c d m = u.withDisplay c d m) :
    (s.runInstr i).withDisplay c d m = (u.runInstr i).withDisplay c d m := by
  have hhs : s.hs = u.hs := by rw [← s.withDisplay_hs, h, u.withDisplay_hs]
  have henter : (s.enter i).withDisplay c d m = (u.enter i).withDisplay c d m := by
    rw [State.withDisplay_enter, State.withDisplay_enter, h]
  obtain ⟨hend, hstate⟩ := State.busWrites_withDisplay_congr (plannedWrites i) henter
  simp only [State.runInstr]
  rw [State.withDisplay_finish, hstate, hend, hhs, ← State.withDisplay_finish]

end Display

/-- Settles O45: the refusal looks at the handle state alone, and a run keeps two states alike but for the display. -/
theorem nothingDependsOnDisplayState : Obligations.NothingDependsOnDisplayState := by
  intro i s c d m
  cases hadmits : admits s.hs i with
  | true =>
    exact ⟨_, _, exec_of_admits hadmits, exec_of_admits (s := s.withDisplay c d m) hadmits,
      State.runInstr_withDisplay_congr i rfl⟩
  | false =>
    exact ⟨_, _, exec_of_not_admits hadmits, exec_of_not_admits (s := s.withDisplay c d m) hadmits, rfl⟩

end Sys2Proof.Machine

/-! SUPPORT. The digit-register multiplexer (42_digit_mux.md): the address selection of R110, SETDIGIT and CLEAR as R111 and R112
say them, and the frames of the instructions that write the digit registers. -/

namespace Sys2Proof.Machine

/-! ### The address selection -/

/-- Settles O22: an index in the range is a natural number below 4, and any other selects nothing. -/
theorem digSelAddresses : Obligations.DigSelAddresses := by
  intro index
  by_cases hindex : 0 ≤ index ∧ index ≤ 3
  · obtain ⟨n, rfl⟩ := Int.eq_ofNat_of_zero_le hindex.1
    have hn : n < 4 := by omega
    rw [if_pos hindex, digSel_of_lt hn, BitVec.ofInt_add]
    simp [ChipReg.addr]
  · rw [if_neg hindex, digSel_of_not_mem hindex, Option.map_none]

/-! ### A write to a digit register -/

theorem State.wrote_dig (s : State) (i : Fin 4) (v : Byte) :
    s.wrote (.dig i) v = { s with
      dig := s.dig.set i v, trace := s.trace ++ [⟨0x34 + BitVec.ofNat 8 i.val, v, true⟩]
      answers := s.answers.drop 1, writes := s.writes + 1 } := by
  rw [List.drop_one]; rfl

theorem State.failedWrite_dig (s : State) (i : Fin 4) (v : Byte) :
    s.failedWrite (.dig i) v = { s with
      dig := s.dig.set i (Config.failedWriteByte s.writes (0x34 + BitVec.ofNat 8 i.val) v s.dig[i])
      trace := s.trace ++ [⟨0x34 + BitVec.ofNat 8 i.val, v, false⟩]
      answers := s.answers.drop 1, writes := s.writes + 1 } := by
  rw [List.drop_one]; rfl

/-! ### SETDIGIT -/

theorem decodeCommand_setDigit (idx c : Byte) (dot : Bool) (rest : List Byte) :
    decodeCommand (0x04 :: idx :: c :: (if dot then 0x01 else 0x00) :: rest) = .instr (.setDigit idx.toInt c dot) rest := by
  have h := decodeOfEncodedCommand (.setDigit idx.toInt c dot) rest rfl (fitsSext8_toInt idx)
  rwa [encode, BitVec.ofInt_toInt] at h

/-- A SETDIGIT that selects no register makes no write, and so only returns its status (42_digit_mux.md R111). -/
theorem runInstr_setDigit_of_not_mem {index : Int} (h : ¬ (0 ≤ index ∧ index ≤ 3)) (c : Byte) (dot : Bool) (s : State) :
    s.runInstr (.setDigit index c dot) = s.report .ok := by
  rw [State.runInstr, plannedWrites, setDigitWrites_of_not_mem h]; rfl

/-- Settles O23: no write where the index selects no register, else one, completed or failed. -/
theorem setDigitOperation : Obligations.SetDigitOperation := by
  refine ⟨decodeCommand_setDigit, fun c dot s => ?_⟩
  have hadmits (hopen : s.hs = .opened) (index : Int) : admits s.hs (.setDigit index c dot) = true := by simp [admits, hopen]
  have hwrites (index : Fin 4) : plannedWrites (.setDigit index.val c dot) = [(.dig index, digitByte glyph c dot)] :=
    setDigitWrites_of_lt index.isLt glyph c dot
  refine ⟨fun hclosed index => ?_, fun hopen index hindex => ?_, fun hopen index h => ?_, fun hopen index h => ?_⟩
  · exact exec_of_not_admits (by simpa [admits] using hclosed)
  · rw [exec_of_admits (hadmits hopen index), runInstr_setDigit_of_not_mem (by omega)]; rfl
  · rw [exec_completes_of_one_write (hadmits hopen _) (hwrites index) h, State.wrote_dig]; rfl
  · rw [exec_fails_of_one_write (hadmits hopen _) (hwrites index) h, State.failedWrite_dig]; rfl

/-! ### CLEAR -/

theorem clearWrites_getElem? (k : Fin 4) : clearWrites[k.val]? = some (.dig k, 0x00) := by revert k; decide

theorem ofFn_set {n : Nat} (f : Fin n → Byte) (k : Fin n) (v : Byte) :
    (Vector.ofFn f).set k v = Vector.ofFn (Function.update f k v) := by
  ext j hj
  simp [Vector.getElem_set, Function.update_apply, Fin.ext_iff, eq_comm]

/-- The state after the first `k` writes of a CLEAR, completed: the registers before `k` are 0x00 (42_digit_mux.md R112). -/
def State.cleared (k : Nat) (s : State) : State :=
  { s with
    dig := Vector.ofFn fun j : Fin 4 => if j.val < k then 0x00 else s.dig[j]
    trace := s.trace ++ (List.range k).map fun j => ⟨0x34 + BitVec.ofNat 8 j, 0x00, true⟩
    answers := s.answers.drop k, writes := s.writes + k }

theorem State.cleared_zero (s : State) : s.cleared 0 = s := by
  simp [State.cleared]

theorem State.wrote_cleared (s : State) (k : Fin 4) : (s.cleared k.val).wrote (.dig k) 0x00 = s.cleared (k.val + 1) := by
  rw [State.wrote_dig]
  simp only [State.cleared, ofFn_set, List.drop_drop, List.range_succ, List.map_append, List.append_assoc, List.map_singleton,
    Nat.add_assoc, State.mk.injEq, true_and, and_true]
  refine congrArg Vector.ofFn (funext fun j => ?_)
  rcases lt_trichotomy j k with hj | rfl | hj
  · simp [hj.ne, hj, hj.le]
  · simp
  · simp [hj.ne', hj.not_gt, hj.not_ge]

theorem State.afterWrites_take_clearWrites {k : Nat} (hk : k ≤ 4) (s : State) :
    s.afterWrites (clearWrites.take k) = s.cleared k := by
  induction k with
  | zero => exact s.cleared_zero.symm
  | succ k ih =>
    have hlast : clearWrites[k]? = some (.dig ⟨k, hk⟩, 0x00) := clearWrites_getElem? ⟨k, hk⟩
    rw [List.take_add_one, hlast, State.afterWrites_append, ih (by omega)]
    exact s.wrote_cleared ⟨k, hk⟩

/-- The state after write `k` of a CLEAR has failed: the registers before `k` are 0x00, that of `k` holds the free value of log 2
and those after it are as before. -/
theorem State.failedWrite_cleared (s : State) (k : Fin 4) :
    (s.cleared k.val).failedWrite (.dig k) 0x00 = { s with
      dig := Vector.ofFn fun j : Fin 4 =>
        if j < k then 0x00
        else if j = k then Config.failedWriteByte (s.writes + k.val) (0x34 + BitVec.ofNat 8 k.val) 0x00 s.dig[k]
        else s.dig[j]
      trace := s.trace ++ ((List.range k.val).map fun j => ⟨0x34 + BitVec.ofNat 8 j, 0x00, true⟩) ++
        [⟨0x34 + BitVec.ofNat 8 k.val, 0x00, false⟩]
      answers := s.answers.drop (k.val + 1), writes := s.writes + k.val + 1 } := by
  rw [State.failedWrite_dig]
  simp only [State.cleared, ofFn_set, List.drop_drop, State.mk.injEq, true_and, and_true]
  refine congrArg Vector.ofFn (funext fun j => ?_)
  by_cases hj : j = k
  · simp [hj]
  · simp [hj]

/-- Settles O24: all four writes, or those before the one that fails, clear their registers. -/
theorem clearOperation : Obligations.ClearOperation := by
  refine ⟨fun rest => decodeOfEncodedCommand .clear rest rfl rfl, fun s => ?_⟩
  have hadmits (hopen : s.hs = .opened) : admits s.hs .clear = true := by simp [admits, hopen]
  refine ⟨fun hclosed => ?_, fun hopen h => ?_, fun hopen k h => ?_⟩
  · exact exec_of_not_admits (by simpa [admits] using hclosed)
  · have hall : s.afterWrites clearWrites = s.cleared 4 := State.afterWrites_take_clearWrites le_rfl s
    rw [exec_of_admits (hadmits hopen), State.runInstr_completes h]
    simp only [plannedWrites, State.enter, hall]
    rfl
  · rw [exec_of_admits (hadmits hopen), State.runInstr_failsAt h (clearWrites_getElem? k)]
    simp only [plannedWrites, State.enter, State.afterWrites_take_clearWrites k.isLt.le, State.failedWrite_cleared]
    rfl

/-! ### Frames -/

/-- What writes to the addresses that satisfy `writable` leave as it was at `s`, but for the handle state and the mode. -/
def State.KeepsOutside (writable : Byte → Prop) (s t : State) : Prop :=
  t.input = s.input ∧ t.txn = s.txn ∧ ∀ a, ¬ writable a → t.peek a = s.peek a

@[simp] theorem State.busWrite_input (s : State) (r : ChipReg) (v : Byte) : (s.busWrite r v).2.input = s.input := by
  rcases s.busWrite_cases r v with e | e | e <;> simp [e, State.wrote, State.failedWrite, State.hungWrite]

@[simp] theorem State.busWrite_txn (s : State) (r : ChipReg) (v : Byte) : (s.busWrite r v).2.txn = s.txn := by
  rcases s.busWrite_cases r v with e | e | e <;> simp [e]

theorem State.KeepsOutside.busWrite {writable : Byte → Prop} {s u : State} (h : s.KeepsOutside writable u) {r : ChipReg}
    (hr : writable r.addr) (v : Byte) : s.KeepsOutside writable (u.busWrite r v).2 := by
  obtain ⟨hinput, htxn, hpeek⟩ := h
  have hother (a : Byte) (ha : ¬ writable a) : a ≠ r.addr := by rintro rfl; exact ha hr
  exact ⟨(u.busWrite_input r v).trans hinput, (u.busWrite_txn r v).trans htxn, fun a ha =>
    (State.busWrite_peek_ne (hother a ha)).trans (hpeek a ha)⟩

/-- The frame of an instruction that writes only to `writable` addresses, the control register's not among them: so it is neither
INIT nor ENABLE, which write there. -/
theorem exec_frame {i : Instr} {s t : State} {writable : Byte → Prop} (hexec : exec i s = .next t) (hclose : i ≠ .close)
    (hctrl : ¬ writable 0x24) (hwrites : ∀ w ∈ plannedWrites i, writable w.1.addr) :
    t.ctrl = s.ctrl ∧ t.hs = s.hs ∧ t.mode = s.mode ∧ t.input = s.input ∧ t.txn = s.txn ∧
      ∀ a, ¬ writable a → t.peek a = s.peek a := by
  rw [exec_eq] at hexec
  split at hexec <;> cases hexec
  · have hinit : i ≠ .init := by rintro rfl; exact hctrl (hwrites _ List.mem_cons_self)
    have henable : ∀ on b, i ≠ .enable on b := by rintro on b rfl; exact hctrl (hwrites _ List.mem_cons_self)
    obtain ⟨hinput, htxn, hpeek⟩ : s.KeepsOutside writable (s.runInstr i) :=
      State.runInstr_keeps (P := s.KeepsOutside writable) ⟨rfl, rfl, fun _ _ => rfl⟩
        (fun _ _ v hmem _ hu => hu.busWrite (hwrites _ hmem) v) (fun _ _ _ hu => hu) fun _ _ hu => hu
    exact ⟨Option.some.inj (hpeek 0x24 hctrl), State.runInstr_hs hinit hclose s, State.runInstr_mode hinit henable s,
      hinput, htxn, hpeek⟩
  · exact ⟨rfl, rfl, rfl, rfl, rfl, fun _ _ => rfl⟩

theorem ChipReg.dig_addr_mem (i : Fin 4) : (ChipReg.dig i).addr ∈ ([0x34, 0x35, 0x36, 0x37] : List Byte) := by
  revert i; decide

theorem IsDigitWrite.addr_mem {w : Write} (h : IsDigitWrite w) : w.1.addr ∈ ([0x34, 0x35, 0x36, 0x37] : List Byte) := by
  obtain ⟨⟨i, hi⟩, -⟩ := h
  exact hi ▸ ChipReg.dig_addr_mem i

/-- Settles O42: the three write digit registers only. -/
theorem digitWritersFrame : Obligations.DigitWritersFrame := by
  intro i s t hi hexec
  refine exec_frame (writable := (· ∈ [0x34, 0x35, 0x36, 0x37])) hexec ?_ (by decide) fun w hw => IsDigitWrite.addr_mem ?_
  · rcases hi with rfl | ⟨text, rfl⟩ | ⟨n, rfl⟩ <;> nofun
  · rcases hi with rfl | ⟨text, rfl⟩ | ⟨n, rfl⟩
    · exact isDigitWrite_of_mem_clearWrites hw
    · exact isDigitWrite_of_mem_printWrites hw
    · exact isDigitWrite_of_mem_printWrites hw

theorem digSel_of_mem_setDigitWrites {g : Byte → Byte} {index : Int} {c : Byte} {dot : Bool} {w : Write}
    (h : w ∈ setDigitWrites g index c dot) : digSel index = some w.1 := by
  unfold setDigitWrites at h
  split at h
  next r hr => rw [List.mem_singleton.mp h, hr]
  next => cases h

theorem digSel_addr_ne_ctrl (index : Int) : (digSel index).map ChipReg.addr ≠ some 0x24 := by
  intro h
  obtain ⟨r, hr, haddr⟩ := Option.map_eq_some_iff.mp h
  obtain ⟨i, rfl⟩ := exists_dig_of_digSel hr
  exact ChipReg.dig_addr_ne_ctrl i haddr

/-- Settles O43: the one address SETDIGIT or a digit transaction writes is the one selected. -/
theorem onePositionFrame : Obligations.OnePositionFrame := by
  intro i target s t hi hexec
  simp only [List.mem_cons, Prod.mk.injEq, List.not_mem_nil, or_false] at hi
  have htarget : i ≠ .close ∧ target ≠ some 0x24 ∧ ∀ w ∈ plannedWrites i, target = some w.1.addr := by
    rcases hi with ⟨k, c, d, rfl, rfl⟩ | ⟨v, ⟨rfl, rfl⟩ | ⟨rfl, rfl⟩ | ⟨rfl, rfl⟩ | ⟨rfl, rfl⟩⟩
    · exact ⟨nofun, digSel_addr_ne_ctrl k, fun w hw => by rw [digSel_of_mem_setDigitWrites hw]; rfl⟩
    all_goals exact ⟨nofun, by decide, List.forall_mem_singleton.mpr rfl⟩
  obtain ⟨hclose, hctrl, hwrites⟩ := htarget
  exact exec_frame (writable := fun a => target = some a) hexec hclose hctrl hwrites

end Sys2Proof.Machine

/-! SUPPORT. The text sequencer (43_text_formatter.md): the fold of R126, the counts of R127 and PRINT as R125 says it. -/

namespace Sys2Proof.Machine

/-! ### The fold -/

theorem foldPeriods_cons_period (c : Byte) (rest : List Byte) :
    foldPeriods (c :: period :: rest) = (c, true) :: foldPeriods rest := if_pos rfl

theorem foldPeriods_cons_of_head?_ne (c : Byte) {rest : List Byte} (h : rest.head? ≠ some period) :
    foldPeriods (c :: rest) = (c, false) :: foldPeriods rest := by
  cases rest with
  | nil => rfl
  | cons d rest => exact if_neg fun hd => h (congrArg some hd)

/-- Settles O25: the three clauses of `foldPeriods`, and the scan as a fold from the cursor at 0. -/
theorem scanIsFirstFourOfFold : Obligations.ScanIsFirstFourOfFold :=
  ⟨rfl, foldPeriods_cons_period, fun c _ => foldPeriods_cons_of_head?_ne c, fun text => scan_eq_take_foldPeriods text 4 0⟩

/-- Every text is of one of the forms of the three clauses. -/
theorem text_cases (text : List Byte) :
    text = [] ∨ (∃ c rest, text = c :: period :: rest) ∨ ∃ c rest, text = c :: rest ∧ rest.head? ≠ some period := by
  match text with
  | [] => exact .inl rfl
  | c :: rest =>
    by_cases h : rest.head? = some period
    · obtain ⟨more, rfl⟩ := List.head?_eq_some_iff.mp h
      exact .inr (.inl ⟨c, more, rfl⟩)
    · exact .inr (.inr ⟨c, rest, rfl, h⟩)

theorem foldPeriods_eq_nil_iff (text : List Byte) : foldPeriods text = [] ↔ text = [] := by
  obtain rfl | ⟨c, rest, rfl⟩ | ⟨c, rest, rfl, hdot⟩ := text_cases text
  · simp [foldPeriods]
  · simp [foldPeriods_cons_period]
  · simp [foldPeriods_cons_of_head?_ne c hdot]

/-- The first positions of a folded text are the fold of its first characters, one for each position, or two with its dot
(43_text_formatter.md R127). -/
theorem exists_foldPeriods_take_eq_take (text : List Byte) (n : Nat) :
    ∃ consumed, consumed ≤ text.length ∧ ((foldPeriods text).take n).length ≤ consumed ∧
      consumed ≤ 2 * ((foldPeriods text).take n).length ∧
      foldPeriods (text.take consumed) = (foldPeriods text).take n := by
  induction n generalizing text with
  | zero => exact ⟨0, by simp [foldPeriods]⟩
  | succ n ih =>
    obtain rfl | ⟨c, rest, rfl⟩ | ⟨c, rest, rfl, hdot⟩ := text_cases text
    · exact ⟨0, by simp [foldPeriods]⟩
    · obtain ⟨consumed, htext, hlow, hhigh, hfold⟩ := ih rest
      simp only [foldPeriods_cons_period, List.take_succ_cons, List.length_cons]
      refine ⟨consumed + 2, by omega, by omega, by omega, ?_⟩
      rw [List.take_succ_cons, List.take_succ_cons, foldPeriods_cons_period, hfold]
    · obtain ⟨consumed, htext, hlow, hhigh, hfold⟩ := ih rest
      have hhead : (rest.take consumed).head? ≠ some period := by rw [List.head?_take]; split_ifs <;> simp [hdot]
      simp only [foldPeriods_cons_of_head?_ne c hdot, List.take_succ_cons, List.length_cons]
      refine ⟨consumed + 1, by omega, by omega, by omega, ?_⟩
      rw [List.take_succ_cons, foldPeriods_cons_of_head?_ne c hhead, hfold]

/-! ### The entries of a PRINT, position by position -/

theorem digitAddr_beq (k i : Fin 4) :
    ((0x34 + BitVec.ofNat 8 k.val : Byte) == 0x34 + BitVec.ofNat 8 i.val) = (k.val == i.val) := by revert k i; decide

theorem filter_range_beq (n i : Nat) : ((List.range n).filter fun k => k == i) = if i < n then [i] else [] := by
  rw [List.filter_beq]
  split_ifs with h
  · rw [List.count_eq_one_of_mem List.nodup_range (List.mem_range.mpr h)]; rfl
  · rw [List.count_eq_zero_of_not_mem (by simpa using h)]; rfl

/-- A position is cleared, and then written if there is a character for it (43_text_formatter.md R127). -/
theorem filter_shownEntries {shown : List (Byte × Bool)} (h : shown.length ≤ 4) (i : Fin 4) :
    ((shownEntries shown).filter fun e => e.addr == 0x34 + BitVec.ofNat 8 i.val) =
      if i.val < shown.length then
        [⟨0x34 + BitVec.ofNat 8 i.val, 0x00, true⟩, ⟨0x34 + BitVec.ofNat 8 i.val, shownByte shown i.val, true⟩]
      else [⟨0x34 + BitVec.ofNat 8 i.val, 0x00, true⟩] := by
  have hclear : ((shownEntries []).filter fun e => e.addr == 0x34 + BitVec.ofNat 8 i.val) =
      [⟨0x34 + BitVec.ofNat 8 i.val, 0x00, true⟩] := by revert i; decide
  have hplaced : ((List.range shown.length).filter fun k =>
      (0x34 + BitVec.ofNat 8 k : Byte) == 0x34 + BitVec.ofNat 8 i.val) = if i.val < shown.length then [i.val] else [] := by
    rw [← filter_range_beq]
    exact List.filter_congr fun k hk => digitAddr_beq ⟨k, (List.mem_range.mp hk).trans_le h⟩ i
  have hsplit : shownEntries shown = shownEntries [] ++
      (List.range shown.length).map fun k => ⟨0x34 + BitVec.ofNat 8 k, shownByte shown k, true⟩ := rfl
  rw [hsplit, List.filter_append, hclear, List.filter_map]
  simp only [Function.comp_def, hplaced]
  split_ifs <;> rfl

theorem shownByte_of_length_le {shown : List (Byte × Bool)} {k : Nat} (h : shown.length ≤ k) : shownByte shown k = 0x00 := by
  rw [shownByte, List.getElem?_eq_none h]

theorem lastWriteTo_shownEntries {shown : List (Byte × Bool)} (h : shown.length ≤ 4) (i : Fin 4) :
    lastWriteTo (ChipReg.dig i).addr (shownEntries shown) = some ⟨(ChipReg.dig i).addr, shownByte shown i.val, true⟩ := by
  have hlast := congrArg List.getLast? (filter_shownEntries h i)
  split_ifs at hlast with hi
  · exact hlast
  · rw [shownByte_of_length_le (not_lt.mp hi)]; exact hlast

/-! ### Digit writes that all complete -/

/-- Completed digit writes change the digit registers, the trace and the count of writes alone. -/
theorem State.afterWrites_of_digitWrites {ws : List Write} (hws : ∀ w ∈ ws, IsDigitWrite w) (s : State) :
    s.afterWrites ws = { s with
      dig := (s.afterWrites ws).dig, trace := s.trace ++ ws.map (entryOf true)
      answers := s.answers.drop ws.length, writes := s.writes + ws.length } := by
  induction ws generalizing s with
  | nil => simp [State.afterWrites]
  | cons w ws ih =>
    obtain ⟨r, v⟩ := w
    obtain ⟨⟨⟨i, rfl⟩, -⟩, hmore⟩ := List.forall_mem_cons.mp hws
    refine (ih hmore (s.wrote (.dig i) v)).trans ?_
    simp [State.wrote_dig, State.afterWrites, entryOf, ChipReg.addr, Nat.add_assoc, Nat.add_comm 1]

@[simp] theorem State.failedWrite_returns (s : State) (r : ChipReg) (v : Byte) : (s.failedWrite r v).returns = s.returns := by
  simp [State.failedWrite]

theorem State.peek_addr (s : State) (r : ChipReg) : s.peek r.addr = some (s.reg r) := by simp [State.peek]

/-- The digit registers after the writes of a PRINT that completes (43_text_formatter.md R125). -/
theorem State.afterWrites_printWrites_dig (text : List Byte) (s : State) :
    (s.afterWrites (printWrites glyph text)).dig =
      Vector.ofFn fun j : Fin 4 => shownByte ((foldPeriods text).take 4) j.val := by
  refine Vector.ext fun j hj => ?_
  have hpeek := s.peek_afterWrites (printWrites glyph text) (ChipReg.dig ⟨j, hj⟩).addr
  rw [printWrites_entries, lastWriteTo_shownEntries (List.length_take_le 4 _), State.peek_addr] at hpeek
  simpa [State.reg] using hpeek

theorem length_printWrites (text : List Byte) : (printWrites glyph text).length = 4 + min 4 (foldPeriods text).length := by
  rw [← List.length_map (entryOf true), printWrites_entries, shownEntries_length, List.length_take]

/-! ### PRINT -/

theorem exec_print_completes {text : List Byte} {s : State} (hopen : s.hs = .opened)
    (h : s.Completes (plannedEntries (.print text))) :
    exec (.print text) s = .next
      { s with
        dig := Vector.ofFn fun j : Fin 4 => shownByte ((foldPeriods text).take 4) j.val
        trace := s.trace ++ shownEntries ((foldPeriods text).take 4)
        returns := s.returns ++ [⟨.ok, none⟩]
        answers := s.answers.drop (4 + min 4 (foldPeriods text).length)
        writes := s.writes + (4 + min 4 (foldPeriods text).length) } := by
  have hafter := s.afterWrites_of_digitWrites fun _ => isDigitWrite_of_mem_printWrites (text := text)
  rw [s.afterWrites_printWrites_dig, printWrites_entries, length_printWrites] at hafter
  rw [exec_of_admits (by simp [admits, hopen]), State.runInstr_completes h]
  exact congrArg (fun t : State => Host.Outcome.next (t.report .ok)) hafter

theorem exec_print_failsAt {text : List Byte} {s : State} {k : Nat} {failing : BusEntry} (hopen : s.hs = .opened)
    (h : s.FailsAt k (plannedEntries (.print text)))
    (hfailing : (shownEntries ((foldPeriods text).take 4))[k]? = some failing) :
    ∃ t : State, exec (.print text) s = .next t ∧
      t.trace = s.trace ++ (shownEntries ((foldPeriods text).take 4)).take k ++ [{ failing with ok := false }] ∧
      t.returns = s.returns ++ [⟨.busFault, none⟩] ∧ t.ctrl = s.ctrl ∧ t.hs = s.hs ∧ t.mode = s.mode := by
  rw [← printWrites_entries, List.getElem?_map, Option.map_eq_some_iff] at hfailing
  obtain ⟨⟨r, v⟩, hk, rfl⟩ := hfailing
  have hexec := exec_of_admits (i := .print text) (s := s) (by simp [admits, hopen])
  obtain ⟨hctrl, hhs, hmode, -⟩ := digitWritersFrame _ s _ (.inr (.inl ⟨text, rfl⟩)) hexec
  have hrun : s.runInstr (.print text) =
      ((s.afterWrites ((printWrites glyph text).take k)).failedWrite r v).report .busFault :=
    State.runInstr_failsAt (i := .print text) h hk
  refine ⟨_, hexec, ?_, ?_, hctrl, hhs, hmode⟩
  · simp [hrun, ← printWrites_entries, entryOf, List.map_take]
  · simp [hrun]

/-- Settles O27: a PRINT is refused, or makes its digit writes, all of them or those up to the one that fails. -/
theorem printOperation : Obligations.PrintOperation :=
  ⟨fun text rest hlength => decodeOfEncodedCommand (.print text) rest rfl (fitsLength_iff.mpr hlength), fun _ _ =>
    ⟨fun hclosed => exec_of_not_admits (by simpa [admits] using hclosed), exec_print_completes,
      fun hopen _ _ => exec_print_failsAt hopen⟩⟩

/-- Settles O26: the scan is the first four positions of the fold, the fold of the characters consumed, and the entries
of a PRINT that completes are those of its positions. -/
theorem printCounts : Obligations.PrintCounts := by
  intro text s
  have hscan : scan text 4 0 = (foldPeriods text).take 4 := scan_eq_take_foldPeriods text 4 0
  rw [hscan]
  refine ⟨List.length_take, ?_, exists_foldPeriods_take_eq_take text 4, fun hopen h => ?_⟩
  · simp [foldPeriods_eq_nil_iff]
  · exact ⟨_, _, exec_print_completes hopen h, rfl, shownEntries_length _, filter_shownEntries (List.length_take_le 4 _)⟩

end Sys2Proof.Machine

/-! SUPPORT. Decimal formatting (43_text_formatter.md): DEC as R128 says it, its digits being those of `Nat.digits`, and
SHOWNUMBER as R129 says it. -/

namespace Sys2Proof.Machine

/-! ### DEC -/

theorem decDigits_eq_digits {fuel n : Nat} (hpos : 0 < n) (hfuel : n < 10 ^ (fuel + 1)) :
    decDigits fuel n = (Nat.digits 10 n).reverse.map digitChar := by
  induction fuel generalizing n with
  | zero =>
    have hn : n < 10 := by simpa using hfuel
    rw [decDigits, Nat.mod_eq_of_lt hn, Nat.digits_of_lt 10 n hpos.ne' hn]; rfl
  | succ fuel ih =>
    rw [decDigits]
    split_ifs with hn
    · rw [Nat.digits_of_lt 10 n hpos.ne' hn]; rfl
    · have hhigh : n / 10 < 10 ^ (fuel + 1) := Nat.div_lt_of_lt_mul (by rwa [← Nat.pow_succ'])
      rw [ih (by omega) hhigh, Nat.digits_def' (by decide) hpos, List.reverse_cons, List.map_append]; rfl

/-- The canonical decimal string of a positive number is its digits, most significant first (43_text_formatter.md R128). -/
theorem decNat_eq_digits {n : Nat} (hpos : 0 < n) : decNat n = (Nat.digits 10 n).reverse.map digitChar :=
  decDigits_eq_digits hpos (Nat.lt_log2_self.trans_le (Nat.pow_le_pow_left (by decide) _))

theorem digitChar_toNat {d : Nat} (h : d < 10) : (digitChar d).toNat = 0x30 + d := by
  rw [digitChar, BitVec.toNat_ofNat]; omega

theorem decimalValue_map_digitChar {ds : List Nat} (h : ∀ d ∈ ds, d < 10) :
    decimalValue (ds.reverse.map digitChar) = Nat.ofDigits 10 ds := by
  rw [decimalValue, List.map_reverse, List.foldl_reverse]
  induction ds with
  | nil => rfl
  | cons d ds ih =>
    obtain ⟨hd, hmore⟩ := List.forall_mem_cons.mp h
    rw [List.map_cons, List.foldr_cons, ih hmore, digitChar_toNat hd, Nat.ofDigits_cons, Nat.add_sub_cancel_left]
    exact Nat.add_comm _ _

theorem isDigit_of_mem_decNat {n : Nat} (hpos : 0 < n) {c : Byte} (h : c ∈ decNat n) :
    codeOf '0' ≤ c ∧ c ≤ codeOf '9' := by
  have hchar : ∀ d : Fin 10, codeOf '0' ≤ digitChar d ∧ digitChar d ≤ codeOf '9' := by decide
  rw [decNat_eq_digits hpos] at h
  obtain ⟨d, hd, rfl⟩ := List.mem_map.mp h
  exact hchar ⟨d, Nat.digits_lt_base (by decide) (List.mem_reverse.mp hd)⟩

theorem head?_decNat_ne_zero {n : Nat} (hpos : 0 < n) : (decNat n).head? ≠ some (codeOf '0') := by
  have hzero : ∀ d : Fin 10, digitChar d = codeOf '0' → d = 0 := by decide
  have hne : Nat.digits 10 n ≠ [] := Nat.digits_ne_nil_iff_ne_zero.mpr hpos.ne'
  have hlt : (Nat.digits 10 n).getLast hne < 10 := Nat.digits_lt_base (by decide) (List.getLast_mem hne)
  rw [decNat_eq_digits hpos, List.head?_map, List.head?_reverse, List.getLast?_eq_some_getLast hne]
  exact fun hhead => Nat.getLast_digit_ne_zero 10 hpos.ne' (congrArg Fin.val (hzero ⟨_, hlt⟩ (Option.some.inj hhead)))

theorem decimalValue_decNat {n : Nat} (hpos : 0 < n) : decimalValue (decNat n) = n := by
  rw [decNat_eq_digits hpos, decimalValue_map_digitChar fun d => Nat.digits_lt_base (by decide), Nat.ofDigits_digits]

theorem dec_natCast (n : Nat) : dec n = decNat n := if_neg (by omega)

theorem dec_neg_natCast {n : Nat} (hpos : 0 < n) : dec (-n) = hyphen :: decNat n := by
  rw [dec, if_pos (by omega), Int.natAbs_neg, Int.natAbs_natCast]

/-- Settles O29: a positive number's string is made of its digits in base 10. -/
theorem decIsCanonicalDecimal : Obligations.DecIsCanonicalDecimal := by
  refine ⟨rfl, fun n hn => ?_, fun n hn => ?_⟩
  · lift n to Nat using hn.le
    have hpos : 0 < n := Int.natCast_pos.mp hn
    rw [dec_natCast]
    exact ⟨fun _ => isDigit_of_mem_decNat hpos, head?_decNat_ne_zero hpos, decDigits_ne_nil _ _,
      congrArg _ (decimalValue_decNat hpos)⟩
  · obtain ⟨m, rfl⟩ := Int.exists_eq_neg_ofNat hn.le
    rw [dec_neg_natCast (by omega), Int.neg_neg, dec_natCast]; rfl

/-! ### SHOWNUMBER -/

theorem exec_showNumber (num : Int) (s : State) : exec (.showNumber num) s = exec (.print (numberText num)) s := rfl

theorem plannedEntries_showNumber (num : Int) : plannedEntries (.showNumber num) = plannedEntries (.print (numberText num)) :=
  congrArg shownEntries (foldPeriods_numberText num).symm

theorem min_length_foldPeriods_numberText (num : Int) :
    min 4 (foldPeriods (numberText num)).length = min 4 (dec num).length := by
  rw [← List.length_take, foldPeriods_numberText, List.length_map, numberText, lastFour, List.length_drop]
  omega

theorem exec_showNumber_completes {num : Int} {s : State} (hopen : s.hs = .opened)
    (h : s.Completes (plannedEntries (.showNumber num))) :
    exec (.showNumber num) s = .next
      { s with
        dig := Vector.ofFn fun j : Fin 4 => shownByte ((numberText num).map fun c => (c, false)) j.val
        trace := s.trace ++ shownEntries ((numberText num).map fun c => (c, false))
        returns := s.returns ++ [⟨.ok, none⟩]
        answers := s.answers.drop (4 + min 4 (dec num).length)
        writes := s.writes + (4 + min 4 (dec num).length) } := by
  rw [plannedEntries_showNumber] at h
  rw [exec_showNumber, exec_print_completes hopen h, foldPeriods_numberText, min_length_foldPeriods_numberText]

/-- Settles O30: SHOWNUMBER is the PRINT of a text without a period, which folds to its characters without a dot. -/
theorem showNumberOperation : Obligations.ShowNumberOperation :=
  ⟨fun _ _ _ _ _ => rfl, fun num s => ⟨exec_showNumber num s, exec_showNumber_completes⟩⟩

theorem lastFour_append {high low : List Byte} (h : low.length = 4) : lastFour (high ++ low) = low := by
  rw [lastFour, List.length_append, h, Nat.add_sub_cancel, List.drop_left]

/-- A number of four digits or more ends in its thousands, hundreds, tens and units. -/
theorem exists_decNat_eq_append {n : Nat} (h : 1000 ≤ n) :
    ∃ high, decNat n = high ++
      [digitChar (n / 1000 % 10), digitChar (n / 100 % 10), digitChar (n / 10 % 10), digitChar (n % 10)] := by
  have hdigits : Nat.digits 10 n = n % 10 :: n / 10 % 10 :: n / 100 % 10 :: n / 1000 % 10 :: Nat.digits 10 (n / 10000) := by
    rw [Nat.digits_def' (by decide) (by omega), Nat.digits_def' (by decide) (by omega),
      Nat.digits_def' (by decide) (by omega), Nat.digits_def' (by decide) (by omega)]
    simp only [Nat.div_div_eq_div_mul, Nat.reduceMul]
  exact ⟨(Nat.digits 10 (n / 10000)).reverse.map digitChar, by rw [decNat_eq_digits (by omega), hdigits]; simp⟩

theorem numberText_of_large {num : Int} (h : 10000 ≤ num ∨ num ≤ -1000) :
    numberText num = [digitChar (num.natAbs / 1000 % 10), digitChar (num.natAbs / 100 % 10),
      digitChar (num.natAbs / 10 % 10), digitChar (num.natAbs % 10)] := by
  obtain ⟨high, hdigits⟩ := exists_decNat_eq_append (n := num.natAbs) (by omega)
  rw [numberText, dec, hdigits]
  split_ifs
  · exact lastFour_append (high := hyphen :: high) rfl
  · exact lastFour_append rfl

/-- Settles O31: the last four characters are then digits, so neither the sign nor a higher digit is shown. -/
theorem largeNumberShowsLowDigits : Obligations.LargeNumberShowsLowDigits := by
  intro num s hopen h hlarge
  refine ⟨_, exec_showNumber_completes hopen h, ?_⟩
  rw [numberText_of_large hlarge]
  rfl

end Sys2Proof.Machine

/-! SUPPORT. Faults and refusals (60_exceptions.md): a command that the handle state admits does not return REFUSED (R154), and a
bus fault leaves of a command the writes before the one that failed (R152). -/

namespace Sys2Proof.Machine

/-! ### The status of a command that is not refused -/

theorem State.complete_returns_ok {i : Instr} (h : i.isCommand = true) (t : State) :
    ∃ result, (t.complete i).returns = t.returns ++ [⟨.ok, result⟩] := by
  cases i with
  | init | enable | clear | setDigit | print | showNumber | close | encode | withDot => exact ⟨_, rfl⟩
  | _ => cases h

/-- A command that runs returns OK or BUS_FAULT, or nothing at all where a write never returns. -/
theorem State.runInstr_returns_ne_refused {i : Instr} (h : i.isCommand = true) (s : State) :
    (s.runInstr i).returns ≠ s.returns ++ [⟨.refused, none⟩] := by
  unfold State.runInstr
  rcases (s.enter i).busWrites_cases (plannedWrites i) with e | ⟨k, r, v, -, e⟩ | ⟨k, r, v, -, e⟩ <;> rw [e]
  · obtain ⟨result, hok⟩ := State.complete_returns_ok h ((s.enter i).afterWrites (plannedWrites i))
    simp [State.finish, hok]
  · simp [State.finish]
  · simp [State.finish, State.hungWrite]

/-- Settles O35: a command that is not admitted is refused and has no other effect, and one that is admitted runs. -/
theorem admissionTable : Obligations.AdmissionTable := by
  intro i s t hcommand _ hexec
  cases hadmits : admits s.hs i with
  | false =>
    rw [exec_of_not_admits hadmits] at hexec
    cases hexec
    exact ⟨iff_of_true rfl rfl, fun _ => rfl⟩
  | true =>
    rw [exec_of_admits hadmits] at hexec
    cases hexec
    exact ⟨iff_of_false nofun (State.runInstr_returns_ne_refused hcommand s), nofun⟩

/-! ### The fields of a command that a bus fault abandons -/

section Fields

variable (i : Instr) (hs : HandleState) (s t : State) (r : ChipReg) (v : Byte)

@[simp] theorem State.enter_answers : (s.enter i).answers = s.answers := by cases i <;> rfl
@[simp] theorem State.enter_writes : (s.enter i).writes = s.writes := by cases i <;> rfl

@[simp] theorem State.failedWrite_hs : (s.failedWrite r v).hs = s.hs := by simp [State.failedWrite]
@[simp] theorem State.failedWrite_input : (s.failedWrite r v).input = s.input := by simp [State.failedWrite]
@[simp] theorem State.failedWrite_answers : (s.failedWrite r v).answers = s.answers.tail := by simp [State.failedWrite]
@[simp] theorem State.failedWrite_writes : (s.failedWrite r v).writes = s.writes + 1 := by simp [State.failedWrite]
@[simp] theorem State.failedWrite_blocked : (s.failedWrite r v).blocked = s.blocked := by simp [State.failedWrite]

@[simp] theorem State.abandon_trace : (t.abandon i hs).trace = t.trace := by cases i <;> rfl
@[simp] theorem State.abandon_mode : (t.abandon i hs).mode = t.mode := by cases i <;> rfl
@[simp] theorem State.abandon_input : (t.abandon i hs).input = t.input := by cases i <;> rfl
@[simp] theorem State.abandon_txn : (t.abandon i hs).txn = t.txn := by cases i <;> rfl
@[simp] theorem State.abandon_answers : (t.abandon i hs).answers = t.answers := by cases i <;> rfl
@[simp] theorem State.abandon_writes : (t.abandon i hs).writes = t.writes := by cases i <;> rfl
@[simp] theorem State.abandon_peek (a : Byte) : (t.abandon i hs).peek a = t.peek a := by cases i <;> rfl

/-- Only INIT changes `hs` before its write, and a bus fault takes that back (41_control_writer.md R90). -/
theorem State.abandon_hs : (t.abandon i hs).hs = if i = .init then hs else t.hs := by cases i <;> rfl

end Fields

theorem State.peek_failedWrite_ne {s : State} {r : ChipReg} {a : Byte} (h : a ≠ r.addr) (v : Byte) :
    (s.failedWrite r v).peek a = s.peek a :=
  State.peek_setReg_ne s.issueWrite r _ h

/-- Settles O36: the writes before write `k` are complete, write `k` has failed, and abandoning adds the status alone. -/
theorem busFaultAbandonsCommand : Obligations.BusFaultAbandonsCommand := by
  intro i k s failing _ hadmits hfails hfailing
  rw [plannedEntries_eq, List.getElem?_map, Option.map_eq_some_iff] at hfailing
  obtain ⟨⟨r, v⟩, hk, rfl⟩ := hfailing
  have hrun := State.runInstr_failsAt hfails hk
  have hk_le : k ≤ (plannedWrites i).length := (List.getElem?_eq_some_iff.mp hk).1.le
  refine ⟨_, (exec_of_admits hadmits).trans (congrArg _ hrun), ?_, by simp, ?_, by simp, by simp, by simp, by simp, ?_, ?_,
    fun a ha => ?_⟩
  · simp [plannedEntries_eq, List.map_take, entryOf]
  · rw [State.abandon_hs, State.failedWrite_hs, State.afterWrites_hs, State.enter_hs]
    split_ifs <;> rfl
  · simp [hk_le]
  · simp [hk_le]
  · rw [State.abandon_peek, State.peek_failedWrite_ne ha, State.peek_afterWrites, State.enter_peek, List.map_take,
      ← plannedEntries_eq]
    cases lastWriteTo a ((plannedEntries i).take k) <;> rfl

end Sys2Proof.Machine

/-! SUPPORT. Reset and hazards (70_reset_and_hazards.md): waiting for a command or for the rest of one (R170), the blank display
inside a PRINT (R174) and the low bit of the brightness (R176). -/

namespace Sys2Proof.Machine

/-! ### A command whose last bytes are missing -/

theorem decodeEnable_of_length_lt {bytes : List Byte} (h : bytes.length < 2) : decodeEnable bytes = .incomplete 0x02 := by
  match bytes with
  | [] | [_] => rfl
  | _ :: _ :: rest => simp only [List.length_cons] at h; omega

theorem decodeSetDigit_of_length_lt {bytes : List Byte} (h : bytes.length < 3) :
    decodeSetDigit bytes = .incomplete 0x04 := by
  match bytes with
  | [] | [_] | [_, _] => rfl
  | _ :: _ :: _ :: rest => simp only [List.length_cons] at h; omega

theorem decodePrint_of_length_lt {bytes : List Byte} (h : bytes.length < 1 + (bytes.headD 0).toNat) :
    decodePrint bytes = .incomplete 0x05 := by
  match bytes with
  | [] => rfl
  | n :: text =>
    have hshort : ¬ n.toNat ≤ text.length := by simp only [List.length_cons, List.headD_cons] at h; omega
    exact if_neg hshort

theorem decodeShowNumber_of_length_lt {bytes : List Byte} (h : bytes.length < 4) :
    decodeShowNumber bytes = .incomplete 0x06 := by
  match bytes with
  | [] | [_] | [_, _] | [_, _, _] => rfl
  | _ :: _ :: _ :: _ :: rest => simp only [List.length_cons] at h; omega

theorem decodeArg_of_length_lt {bytes : List Byte} (h : bytes.length < 1) (op : Byte) (make : Byte → Instr) :
    decodeArg op make bytes = .incomplete op := by
  rw [List.length_eq_zero_iff.mp (Nat.lt_one_iff.mp h)]; rfl

theorem commandLength_of_reserved {op : Byte} (h : op = 0x00 ∨ 0x0A ≤ op) (next : Byte) : commandLength op next = 1 := by
  rw [reserved_iff_not_mem_opcodes] at h
  simp only [List.mem_cons, List.not_mem_nil, or_false, not_or] at h
  simp only [commandLength, h, or_self, if_false]

/-- A command that has begun and has fewer bytes than its length is not complete yet (30_encoding.md R61). -/
theorem decodeCommand_of_length_lt {op : Byte} {bytes : List Byte}
    (h : bytes.length + 1 < commandLength op (bytes.headD 0)) : decodeCommand (op :: bytes) = .incomplete op := by
  by_cases hop : op = 0x00 ∨ 0x0A ≤ op
  · rw [commandLength_of_reserved hop] at h; omega
  · rw [reserved_iff_not_mem_opcodes, not_not] at hop
    simp only [List.mem_cons, List.not_mem_nil, or_false] at hop
    rcases hop with rfl | rfl | rfl | rfl | rfl | rfl | rfl | rfl | rfl
    · have : bytes.length + 1 < 1 := h
      omega
    · have : bytes.length + 1 < 3 := h
      exact decodeEnable_of_length_lt (by omega)
    · have : bytes.length + 1 < 1 := h
      omega
    · have : bytes.length + 1 < 4 := h
      exact decodeSetDigit_of_length_lt (by omega)
    · have : bytes.length + 1 < 2 + (bytes.headD 0).toNat := h
      exact decodePrint_of_length_lt (by omega)
    · have : bytes.length + 1 < 5 := h
      exact decodeShowNumber_of_length_lt (by omega)
    · have : bytes.length + 1 < 1 := h
      omega
    · have : bytes.length + 1 < 2 := h
      exact decodeArg_of_length_lt (by omega) _ _
    · have : bytes.length + 1 < 2 := h
      exact decodeArg_of_length_lt (by omega) _ _

/-- Settles O54: no byte decodes as idle, too few as incomplete, and for both the step is to the same state. -/
theorem waitingChangesNothing : Obligations.WaitingChangesNothing := by
  intro s hfree htxn hshort
  rw [step, State.fetch_of_command hfree htxn, State.fetchCommand]
  cases hinput : s.input with
  | nil => rfl
  | cons op bytes =>
    rw [hinput] at hshort
    rw [decodeCommand_of_length_lt (op := op) hshort]

theorem step_of_no_input {s : State} (hfree : s.blocked = none) (htxn : s.txn = []) (hinput : s.input = []) :
    step s = .next s :=
  waitingChangesNothing s hfree htxn (by rw [hinput]; decide)

/-- Settles O11: reset leaves nothing stuck and no transaction pending, so with no command bytes the block waits. -/
theorem resetDoesTheLeast : Obligations.ResetDoesTheLeast :=
  ⟨rfl, rfl, rfl, fun s => ⟨rfl, rfl, rfl, rfl, rfl, step_of_no_input (s := s.blockReset) rfl rfl⟩,
    step_of_no_input rfl rfl rfl⟩

/-! ### The blank display inside a PRINT -/

theorem lastWriteTo_append_of_eq_some {a : Byte} {later : List BusEntry} {entry : BusEntry}
    (h : lastWriteTo a later = some entry) (trace : List BusEntry) : lastWriteTo a (trace ++ later) = some entry := by
  unfold lastWriteTo at h ⊢
  rw [List.filter_append, List.getLast?_append, h]
  rfl

/-- A PRINT begins with the writes of a PRINT of no characters, which are CLEAR's (43_text_formatter.md R125). -/
theorem take_four_shownEntries (shown : List (Byte × Bool)) : (shownEntries shown).take 4 = shownEntries [] := rfl

/-- Settles O28: the first four writes of a PRINT that completes are the clear, which writes each position a completed 0x00. -/
theorem printPassesThroughBlank : Obligations.PrintPassesThroughBlank := by
  refine fun text s hopen h => ⟨_, exec_print_completes hopen h, fun i => ?_⟩
  rw [List.take_length_add_append, take_four_shownEntries]
  exact lastWriteTo_append_of_eq_some (lastWriteTo_shownEntries (shown := []) (Nat.zero_le 4) i) s.trace

/-! ### The low bit of the brightness -/

/-- The bit 0 that switches the display on takes the place of the low bit of the brightness (30_encoding.md R52). -/
theorem onByte_congr {b c : Fin 8} (h : b.val / 2 = c.val / 2) : onByte b = onByte c := by
  revert b c; decide

theorem enableByte_true_two_mul_add_one (k : Int) : enableByte true (2 * k + 1) = enableByte true (2 * k) := by
  refine onByte_congr ?_
  rw [clampBrightness_val, clampBrightness_val]
  omega

theorem onByte_ne_offByte (b : Fin 8) : onByte b ≠ offByte := by
  revert b; decide

/-- An ENABLE is known by its byte but for the mode it goes to, whatever the environment answers to its write. -/
theorem State.runInstr_enable_congr {on on' : Bool} {b b' : Int} (h : enableByte on b = enableByte on' b') (s : State)
    (m : Mode) :
    { s.runInstr (.enable on b) with mode := m } = { s.runInstr (.enable on' b') with mode := m } := by
  simp only [State.runInstr, State.enter, plannedWrites, h]
  rcases State.busWrites [(.ctrl, enableByte on' b')] s with ⟨_ | _ | _, t⟩
  · rfl
  · rfl
  · rfl

/-- Settles O16: the two brightnesses have one byte, and whether ENABLE is refused does not hang on the brightness. -/
theorem lowBrightnessBitIsLost : Obligations.LowBrightnessBitIsLost := by
  refine ⟨fun k s t u m ht hu => ?_, fun b => onByte_ne_offByte (clampBrightness b)⟩
  have hbrightness : admits s.hs (.enable true (2 * k + 1)) = admits s.hs (.enable true (2 * k)) := rfl
  rw [exec_eq] at ht
  rw [exec_eq, hbrightness] at hu
  cases ht
  cases hu
  split
  · exact State.runInstr_enable_congr (enableByte_true_two_mul_add_one k).symm s m
  · rfl

end Sys2Proof.Machine
